-- ==== Sys2Proof/Word.lean ====
section
/-! DEFINITION. The word types of the core: bytes, 16-bit words, 12-bit addresses and the 4-bit register numbers
(spec/00_scope.md R5, R7, R8; every value is unsigned). -/

namespace Sys2Proof

/-- One byte: a V register, a timer, a memory cell, an immediate `kk` (R5, R15, R25, R54). -/
abbrev Byte := BitVec 8

/-- One 16-bit word: an instruction word, `pc`, `I`, a stack entry (R5, R18, R21, R23, R51). -/
abbrev Word := BitVec 16

/-- The 12-bit operand `abc` of JP and LDI (R53). -/
abbrev Addr12 := BitVec 12

/-- A register number, the 4-bit field `x` or `y`: an index of 16 or more cannot occur (R15, R55). -/
abbrev VReg := Fin 16

/-- The sprite height `n`, 0 to 15 (R55). -/
abbrev Height := Fin 16

end Sys2Proof
end

