-- ==== Sys2Proof/Config.lean ====
section
/-! DEFINITION. What one core's construction fixes: the parameters of spec/00_scope.md R5 with their values, and the named
parameters of R6, which the document leaves open and which stand here as uninterpreted constants. -/

namespace Sys2Proof

/-- MEM_SIZE: 4096 bytes, addresses 0x000 to 0xFFF (R5, R34). -/
abbrev Config.memSize : Nat := 4096

/-- LOAD_OFFSET: where the image is loaded and the first fetch happens (R5, R42, R114). -/
abbrev Config.loadOffset : Nat := 0x200

/-- MAX_IMAGE: MEM_SIZE − LOAD_OFFSET = 3584 bytes (R5, R115). -/
abbrev Config.maxImage : Nat := 3584

/-- DISPLAY_W: 64 columns (R5, R29). -/
abbrev Config.displayWidth : Nat := 64

/-- DISPLAY_H: 32 rows (R5, R29). -/
abbrev Config.displayHeight : Nat := 32

/-- The two values of the parameter `DECODE_ERROR_PC` (R6, R71, D5): what `pc` holds after a step that fails to decode. -/
inductive DecodeErrorPc where
  /-- `pc` keeps the fetch address. -/
  | retain
  /-- `pc` is (fetch address + 2) mod 4096. -/
  | advance
  deriving DecidableEq, Repr, Inhabited

/-- The named parameters of R6: fixed when the core is built, never changed, and no state (R14). -/
structure Parameters where
  /-- `DECODE_ERROR_PC`, left OPEN by D5. -/
  decodeErrorPc : DecodeErrorPc
  /-- `STEP_FREQUENCY_HZ` in steps per second; read only by the reported clock period (R6, R32, D13). -/
  stepFrequencyHz : Rat
  /-- `TIMER_RATE_HZ`, the rate of the external timer agent; no rule reads it (R6, R107, D8). -/
  timerRateHz : Rat
  deriving DecidableEq, Repr, Inhabited

/-- The parameters of the core that `Machine.step` describes: a constant with no value a proof can see, so a theorem about
`Machine.step` holds for every choice (log 4, log 11). -/
opaque Config.parameters : Parameters

end Sys2Proof
end

