-- ==== Sys2Proof/Syntax.lean ====
section
/-! DEFINITION. The instruction set: exactly seven instructions (spec/00_scope.md R2), one constructor for each row of
spec/opcode_table.json, with the operand letters of R11. -/

namespace Sys2Proof

/-- A decoded instruction. The operand types admit exactly the values the fields of the word can hold (R53 to R55). -/
inductive Instr where
  /-- NOP, no operation (R79). -/
  | nop
  /-- CLS, clear the display (R84). -/
  | cls
  /-- JP addr, absolute jump (R80). -/
  | jp (abc : Addr12)
  /-- LD Vx, kk, load immediate (R81). -/
  | ld (x : VReg) (kk : Byte)
  /-- ADD Vx, kk, add immediate, 8-bit wrapping, no carry (R82). -/
  | add (x : VReg) (kk : Byte)
  /-- LDI addr, load the index register (R83). -/
  | ldi (abc : Addr12)
  /-- DRW Vx, Vy, n, draw an n-row sprite (R85). -/
  | drw (x : VReg) (y : VReg) (n : Height)
  deriving DecidableEq, Repr

end Sys2Proof
end

