-- ==== Sys2Proof/WellFormed.lean ====
section
/-! DEFINITION. Well-formedness. A term of `Instr` is well-formed by its types (a register number is below 16, an address has
12 bits, "an out-of-range register index (x or y ≥ 16) cannot occur", R15). The checks stand where operands are still plain
numbers: on a line of the assembler syntax (R65, D10), whose out-of-range operands are refused, not truncated. -/

namespace Sys2Proof

/-- One line of the assembler syntax of R65, its operands as the numbers written. -/
inductive AsmLine where
  /-- `NOP` -/
  | nop
  /-- `CLS` -/
  | cls
  /-- `JP addr` -/
  | jp (addr : Nat)
  /-- `LD Vx, kk` -/
  | ld (x kk : Nat)
  /-- `ADD Vx, kk` -/
  | add (x kk : Nat)
  /-- `LDI addr` (also written `LD I, addr`) -/
  | ldi (addr : Nat)
  /-- `DRW Vx, Vy, n` -/
  | drw (x y n : Nat)
  /-- `.byte b0, b1, ...`, raw data -/
  | bytes (bs : List Nat)
  deriving DecidableEq, Repr

/-- The operand ranges of R65's table: addr 0x000 to 0xFFF, x and y 0x0 to 0xF, kk 0x00 to 0xFF, n 0 to 15, a data byte
0x00 to 0xFF. -/
def AsmLine.wellFormed : AsmLine → Bool
  | .nop => true
  | .cls => true
  | .jp addr => decide (addr ≤ 0xFFF)
  | .ld x kk => decide (x ≤ 0xF) && decide (kk ≤ 0xFF)
  | .add x kk => decide (x ≤ 0xF) && decide (kk ≤ 0xFF)
  | .ldi addr => decide (addr ≤ 0xFFF)
  | .drw x y n => decide (x ≤ 0xF) && decide (y ≤ 0xF) && decide (n ≤ 15)
  | .bytes bs => bs.all fun b => decide (b ≤ 0xFF)

end Sys2Proof
end

