-- ==== Sys2Proof/Decode.lean ====
section
/-! DEFINITION. The opcode decoder (spec/30_encoding.md R57, R58), total on every 16-bit word and refusing by name, and after
it the encoder, the opcode table's rows and the assembler (R65). -/

namespace Sys2Proof

/-! ### Fields of the word (R7, R53 to R55) -/

/-- Nibble 1, `w[15:12]` (R7). -/
def nibble1 (w : Word) : BitVec 4 := w.extractLsb' 12 4

/-- The register field `x = w[11:8]` (R55). -/
def fieldX (w : Word) : VReg := (w.extractLsb' 8 4).toFin

/-- The register field `y = w[7:4]` (R55). -/
def fieldY (w : Word) : VReg := (w.extractLsb' 4 4).toFin

/-- The height `n = w[3:0]` (R55). -/
def fieldN (w : Word) : Height := (w.extractLsb' 0 4).toFin

/-- The immediate `kk = w[7:0]` (R54, C1). -/
def fieldKK (w : Word) : Byte := w.extractLsb' 0 8

/-- The address `abc = w[11:0]` (R53, C1). -/
def fieldABC (w : Word) : Addr12 := w.extractLsb' 0 12

/-! ### The decoder -/

/-- Why the decoder refuses a word. -/
inductive DecodeReject where
  /-- "anything else — decode failure: unimplemented/invalid opcode": the word matches none of the seven patterns (R62). -/
  | noPattern (w : Word)
  deriving DecidableEq, Repr

/-- The decoder: the seven patterns in the priority order of R58, and a decode error for every other word. -/
def decode (w : Word) : Except DecodeReject Instr :=
  if w = 0x0000#16 then .ok .nop
  else if w = 0x00E0#16 then .ok .cls
  else if nibble1 w = 0x1#4 then .ok (.jp (fieldABC w))
  else if nibble1 w = 0x6#4 then .ok (.ld (fieldX w) (fieldKK w))
  else if nibble1 w = 0x7#4 then .ok (.add (fieldX w) (fieldKK w))
  else if nibble1 w = 0xA#4 then .ok (.ldi (fieldABC w))
  else if nibble1 w = 0xD#4 then .ok (.drw (fieldX w) (fieldY w) (fieldN w))
  else .error (.noPattern w)

/-- The word of two consecutive bytes, the first the most significant: `(hi << 8) | lo` (R37, R51). -/
def wordOfBytes (hi lo : Byte) : Word := hi ++ lo

/-- The high byte of a word, stored first (R37). -/
def highByte (w : Word) : Byte := w.extractLsb' 8 8

/-- The low byte of a word, stored second (R37). -/
def lowByte (w : Word) : Byte := w.extractLsb' 0 8

/-- The decoder on the two bytes of an instruction, in the order they stand in memory. -/
def decodeBytes (hi lo : Byte) : Except DecodeReject Instr := decode (wordOfBytes hi lo)

/-- The decoder on a word numbered as spec/opcode_table.json numbers it: the low `nbits` bits of `w` (all the bits above are
0), laid out as two bytes with the most significant first and given to the decoder. -/
def decodeTableWord (nbits w : Nat) : Option Instr :=
  let word : Word := BitVec.ofNat 16 (w % 2 ^ nbits)
  match decodeBytes (highByte word) (lowByte word) with
  | .ok i => some i
  | .error _ => none

/-! ### The encoder -/

/-- The word of an instruction: the opcode nibble and the operand nibbles of R52's formats Z, A, XK and XYN. -/
def encode : Instr → Word
  | .nop => 0x0000#16
  | .cls => 0x00E0#16
  | .jp abc => 0x1#4 ++ abc
  | .ld x kk => 0x6#4 ++ BitVec.ofFin (w := 4) x ++ kk
  | .add x kk => 0x7#4 ++ BitVec.ofFin (w := 4) x ++ kk
  | .ldi abc => 0xA#4 ++ abc
  | .drw x y n => 0xD#4 ++ BitVec.ofFin (w := 4) x ++ BitVec.ofFin (w := 4) y ++ BitVec.ofFin (w := 4) n

/-! ### The opcode table -/

/-- One row of spec/opcode_table.json: a word belongs to the row when its bits under `mask` are `pattern`. -/
structure OpcodeRow where
  mnemonic : String
  mask : Word
  pattern : Word
  deriving DecidableEq, Repr

/-- A word has the fixed bits of a row. -/
def OpcodeRow.accepts (r : OpcodeRow) (w : Word) : Bool := w &&& r.mask == r.pattern

/-- The table's row of each instruction. -/
def Instr.row : Instr → OpcodeRow
  | .nop => ⟨"NOP", 0xFFFF#16, 0x0000#16⟩
  | .cls => ⟨"CLS", 0xFFFF#16, 0x00E0#16⟩
  | .jp _ => ⟨"JP", 0xF000#16, 0x1000#16⟩
  | .ld _ _ => ⟨"LD", 0xF000#16, 0x6000#16⟩
  | .add _ _ => ⟨"ADD", 0xF000#16, 0x7000#16⟩
  | .ldi _ => ⟨"LDI", 0xF000#16, 0xA000#16⟩
  | .drw _ _ _ => ⟨"DRW", 0xF000#16, 0xD000#16⟩

/-- The seven rows of spec/opcode_table.json, in its order. -/
def opcodeTable : List OpcodeRow :=
  [Instr.row .nop, Instr.row .cls, Instr.row (.jp 0), Instr.row (.ld 0 0), Instr.row (.add 0 0), Instr.row (.ldi 0),
    Instr.row (.drw 0 0 0)]

/-! ### The assembler (R65) -/

/-- The instruction an assembler line stands for: none for a data line, and none where an operand is out of its range. -/
def AsmLine.instr? (l : AsmLine) : Option Instr :=
  if l.wellFormed then
    match l with
    | .nop => some .nop
    | .cls => some .cls
    | .jp addr => some (.jp (BitVec.ofNat 12 addr))
    | .ld x kk => some (.ld (Fin.ofNat 16 x) (BitVec.ofNat 8 kk))
    | .add x kk => some (.add (Fin.ofNat 16 x) (BitVec.ofNat 8 kk))
    | .ldi addr => some (.ldi (BitVec.ofNat 12 addr))
    | .drw x y n => some (.drw (Fin.ofNat 16 x) (Fin.ofNat 16 y) (Fin.ofNat 16 n))
    | .bytes _ => none
  else none

/-- The bytes a line places: an instruction's word, most significant byte first, or the data bytes; none where an operand is
out of its range ("refused by the assembler, not truncated", R65). -/
def AsmLine.assemble (l : AsmLine) : Option (List Byte) :=
  match l with
  | .bytes bs => if l.wellFormed then some (bs.map (BitVec.ofNat 8)) else none
  | .nop | .cls | .jp _ | .ld _ _ | .add _ _ | .ldi _ | .drw _ _ _ =>
    l.instr?.map fun i => [highByte (encode i), lowByte (encode i)]

/-- The image of a program: the bytes of its lines in order; none if a line is refused. -/
def assemble : List AsmLine → Option (List Byte)
  | [] => some []
  | l :: ls => do
    let here ← l.assemble
    let rest ← assemble ls
    return here ++ rest

end Sys2Proof
end

