-- ==== Sys2Proof/Machine/State.lean ====
section
/-! DEFINITION. The state of the core (spec/10_state.md R14), the outcome of a step as the host receives it (R13), the reasons
a transaction can stop, and the state right after construction (spec/70_reset_and_hazards.md R114). -/

namespace Sys2Proof.Machine

/-- Memory: the list of the bytes that are not 0, by strictly rising address (log 6). An unlisted address reads as 0, which is
what every byte holds after construction (R33). -/
abbrev Memory := List Host.Cell

/-- The display: 32 rows, row 0 at the top, of 64 pixels, column 0 at the left; on = true (R29, D22). -/
abbrev FrameBuffer := Vector (Vector Bool 64) 32

/-- Every pixel off. -/
def FrameBuffer.blank : FrameBuffer := Vector.replicate 32 (Vector.replicate 64 false)

/-- The 16 key states, an argument of every step and no state (R30); index i is CHIP-8 key i (D15). -/
abbrev Keys := Vector Bool 16

/-- No key pressed. -/
def Keys.noneHeld : Keys := Vector.replicate 16 false

/-- What a DecodeError records: the fetched word and the fetch address (R94, D6). -/
structure DecodeError where
  word : Word
  addr : Word
  deriving DecidableEq, Repr

/-- The three outcomes of a step (R13, R67): `ok none` is `Ok(None)`, `ok (some snapshot)` is `Ok(Some(snapshot))`,
`err e` is `Err(DecodeError)`. -/
inductive StepResult where
  | ok (display : Option FrameBuffer)
  | err (e : DecodeError)
  deriving DecidableEq, Repr

/-- Where the core stands in the boot sequence of R117. -/
inductive Phase where
  /-- Constructed, waiting for its one load. -/
  | constructed
  /-- A load has succeeded: steps may run. -/
  | loaded
  deriving DecidableEq, Repr

/-- The state. The first nine fields are the spec's tuple (R14); `phase`, `reply` and `decodeErrors` are the model's own
(log 1, log 3, log 7). -/
structure State where
  /-- 4096 bytes (R28, R34), written by the load port only. -/
  mem : Memory
  /-- V0 to VF (R15). -/
  v : Vector Byte 16
  /-- The index register I (R21). -/
  i : Word
  /-- The program counter (R18). -/
  pc : Word
  /-- 16 return addresses, unused in this subset (R23). -/
  stack : Vector Word 16
  /-- The stack's depth counter, 0 to 16 (R23). -/
  sp : Fin 17
  /-- The delay timer (R25). -/
  dt : Byte
  /-- The sound timer (R25). -/
  st : Byte
  /-- The framebuffer (R29). -/
  fb : FrameBuffer
  /-- Where the core stands in the boot sequence (R117, R118). -/
  phase : Phase
  /-- What the last step returned to the host; none before the first step (R13, R73). -/
  reply : Option StepResult
  /-- Every DecodeError recorded so far, the first one first, never cleared (R113, D17). -/
  decodeErrors : List DecodeError
  deriving DecidableEq, Repr

/-- Why a boot stops with a fault. No step ever faults: a DecodeError is a next state (log 2). -/
inductive Fault where
  /-- Raised by `boot` alone, when the image is longer than 3584 bytes: "a LoadError means there is no launch state: no run
  begins" (R97, R113, R116). Safe: the spec gives no run here. -/
  | loadError (length : Nat)
  deriving DecidableEq, Repr

/-- Why a transaction is refused. -/
inductive Refusal where
  /-- No meaning yet for this instruction. No arm of `exec` raises it. Safe. -/
  | notModelled (mnemonic : String)
  /-- Raised by a step of a core that has not been loaded: "the model does not admit them: it refuses them" (R118, D11).
  Safe. -/
  | stepBeforeLoad
  /-- Raised by the load port on a second load and on a load after steps (R118, D11). Safe. -/
  | secondLoad
  /-- Raised by construction with a frequency that is not positive (R114, D13). Safe. -/
  | nonPositiveFrequency
  deriving DecidableEq, Repr

/-- The state after construction (R33, R114): memory, registers, I, stack, sp and timers 0, every pixel off, pc at 0x200; and
the model's own fields at their start: not loaded, nothing returned, nothing recorded. -/
def State.reset : State where
  mem := []
  v := Vector.replicate 16 0#8
  i := 0#16
  pc := 0x200#16
  stack := Vector.replicate 16 0#16
  sp := 0
  dt := 0#8
  st := 0#8
  fb := FrameBuffer.blank
  phase := .constructed
  reply := none
  decodeErrors := []

/-- The running result of a sprite draw: the display so far, and whether a pixel has been turned off (R85). -/
structure Canvas where
  fb : FrameBuffer
  hit : Bool
  deriving DecidableEq, Repr

/-- The result of the load port: Ok, or LoadError (R103). -/
inductive LoadResult where
  | ok
  | loadError
  deriving DecidableEq, Repr

/-- The host operations after construction (R103). -/
inductive HostOp where
  | load (image : List Byte)
  | step (keys : Keys)
  | buzzer
  | clockPeriod
  | timerTick
  deriving DecidableEq, Repr

/-- What a host operation returns (R103). -/
inductive HostReply where
  | load (r : LoadResult)
  | step (r : Option StepResult)
  | buzzer (on : Bool)
  | clockPeriod (seconds : Rat)
  | ticked
  deriving DecidableEq, Repr

end Sys2Proof.Machine
end

