-- ==== Sys2Proof/Machine/Ops.lean ====
section
/-! DEFINITION. The named operations over memory, registers and display (the primitives of spec/00_scope.md R9), the fetch
(spec/40_step.md R69, R70), the two ways an instruction returns (R73), and raising a DecodeError (spec/60_exceptions.md R94,
R95). -/

namespace Sys2Proof.Machine

/-! ### Memory (R9, R28, R34, R36) -/

/-- The byte a cell list holds at an address: the listed one, else 0. -/
def Memory.readCell : Memory → Nat → Byte
  | [], _ => 0#8
  | (a, b) :: rest, x => if a = x then b else Memory.readCell rest x

/-- A cell list with one byte changed, the addresses kept rising and no 0 listed. -/
def Memory.writeCell : Memory → Nat → Byte → Memory
  | [], x, b => if b = 0#8 then [] else [(x, b)]
  | (a, c) :: rest, x, b =>
    if x < a then (if b = 0#8 then (a, c) :: rest else (x, b) :: (a, c) :: rest)
    else if x = a then (if b = 0#8 then rest else (x, b) :: rest)
    else (a, c) :: Memory.writeCell rest x b

/-- `MemRead(addr, 1)`: the byte at `addr mod 4096`, without side effect (R9, R36, R40). -/
def Memory.read (m : Memory) (addr : Nat) : Byte := m.readCell (addr % Config.memSize)

/-- `MemWrite(addr, 1, b)`, used by the load port alone (R9, R44). -/
def Memory.write (m : Memory) (addr : Nat) (b : Byte) : Memory := m.writeCell (addr % Config.memSize) b

/-- The canonical form from address `lo` on: addresses strictly rising and inside memory, no listed 0. -/
def Memory.wfFrom : Nat → Memory → Bool
  | _, [] => true
  | lo, (a, b) :: rest => decide (lo ≤ a) && decide (a < Config.memSize) && !decide (b = 0#8) && Memory.wfFrom (a + 1) rest

/-- The canonical form of memory, in which equal memories are equal lists. -/
def Memory.wf (m : Memory) : Bool := Memory.wfFrom 0 m

/-- Zero-filled memory with the bytes of `image` at `a`, `a + 1`, and so on (R115). -/
def Memory.ofImage : Nat → List Byte → Memory
  | _, [] => []
  | a, b :: bs => (Memory.ofImage (a + 1) bs).write a b

/-! ### Registers and display (R9) -/

/-- `V[x]` read. -/
def State.readV (s : State) (x : VReg) : Byte := s.v[x.val]

/-- `V[x] <- b`. -/
def State.writeV (s : State) (x : VReg) (b : Byte) : State := { s with v := s.v.set x.val b }

/-- `I <- w`. -/
def State.setI (s : State) (w : Word) : State := { s with i := w }

/-- `pc <- w`. -/
def State.setPc (s : State) (w : Word) : State := { s with pc := w }

/-- The display replaced. -/
def State.setFb (s : State) (fb : FrameBuffer) : State := { s with fb := fb }

/-- `fb[row][col]` read. -/
def FrameBuffer.pixel (fb : FrameBuffer) (row : Fin 32) (col : Fin 64) : Bool := fb[row.val][col.val]

/-- `fb[row][col] <- b`. -/
def FrameBuffer.setPixel (fb : FrameBuffer) (row : Fin 32) (col : Fin 64) (b : Bool) : FrameBuffer :=
  fb.set row.val (fb[row.val].set col.val b)

/-! ### Fetch (R69, R70) -/

/-- `(a + 2) mod 4096`, the address of the next word: 0xFFE gives 0x000 and 0xFFF gives 0x001 (R70). -/
def nextPc (a : Word) : Word := BitVec.ofNat 16 ((a.toNat + 2) % Config.memSize)

/-- The word at `pc`: the byte at `pc`, most significant, and the byte at `(pc + 1) mod 4096` (R37, R69, D2). -/
def fetchWord (s : State) : Word := wordOfBytes (s.mem.read s.pc.toNat) (s.mem.read (s.pc.toNat + 1))

/-- The fetch's advance of `pc`, made before the instruction executes (R19, R70). -/
def advancePc (s : State) : State := s.setPc (nextPc s.pc)

/-! ### Returning from a step (R9, R73, R74) -/

/-- `return None`: the step completes with no display update. -/
def returnNone (s : State) : State := { s with reply := some (.ok none) }

/-- `return Some(copy of fb)`: the step completes with a copy of all 2048 pixels, taken after the last write (R74). -/
def returnDisplay (s : State) : State := { s with reply := some (.ok (some s.fb)) }

/-! ### Raising a DecodeError (R71, R94, R95, R100) -/

/-- `pc` after a DecodeError at fetch address `a`, under each value of `DECODE_ERROR_PC` (R71, D5). -/
def pcAfterDecodeError (p : DecodeErrorPc) (a : Word) : Word :=
  match p with
  | .retain => a
  | .advance => nextPc a

/-- The one exception of a step. It saves nothing, enters no vector and changes no mode (R100): `pc` follows
`DECODE_ERROR_PC`, the error with the fetched word and fetch address is returned to the host and recorded (R94, R113), and
everything else stays (R95). There is no return from it: the host's next call of step goes on from this state (R101). -/
def takeDecodeError (p : DecodeErrorPc) (word : Word) (s : State) : State :=
  { s with
    pc := pcAfterDecodeError p s.pc
    reply := some (.err ⟨word, s.pc⟩)
    decodeErrors := s.decodeErrors ++ [⟨word, s.pc⟩] }

end Sys2Proof.Machine
end

