-- ==== Sys2Proof/Machine/Operands.lean ====
section
/-! DEFINITION. Every operand form of the seven instructions: the 12-bit address, the register, the immediate (used as it
stands), the sprite start position and the sprite source in memory (spec/30_encoding.md R53 to R56, spec/20_memory.md R45,
spec/43_display.md R86). -/

namespace Sys2Proof.Machine

/-- `zext_16(abc)`: the address of JP and LDI, widened with zeros (R8, R53, R56). -/
def zextAddr (abc : Addr12) : Word := abc.setWidth 16

/-- The start column `V[x] mod 64` (R86). -/
def startColumn (s : State) (x : VReg) : Nat := (s.readV x).toNat % Config.displayWidth

/-- The start row `V[y] mod 32` (R86). -/
def startRow (s : State) (y : VReg) : Nat := (s.readV y).toNat % Config.displayHeight

/-- The effective address of sprite row `r`, `(I + r) mod 4096`: I itself is not changed (R45, R92, D3). -/
def spriteAddress (i : Word) (r : Nat) : Nat := (i.toNat + r) % Config.memSize

/-- The sprite's byte for row `r` (R45, R92). -/
def spriteByte (mem : Memory) (i : Word) (r : Nat) : Byte := mem.read (spriteAddress i r)

/-- Column `c` of a sprite row: bit `7 - c`, the most significant bit leftmost (R85, R89). -/
def spriteBit (b : Byte) (c : Nat) : Bool := b.getLsbD (7 - c)

end Sys2Proof.Machine
end

