-- ==== Sys2Proof/Machine/Control.lean ====
section
/-! DEFINITION. The control family: NOP and JP (spec/41_control.md). When a meaning runs, the fetch has already advanced `pc`
(R70). -/

namespace Sys2Proof.Machine

/-- NOP: `return None` (R79). -/
def execNop (s : State) : Host.Outcome State Fault Refusal := .next (returnNone s)

/-- JP addr: `pc <- zext_16(abc); return None`; absolute, and an odd target is legal (R80, R20). -/
def execJp (abc : Addr12) (s : State) : Host.Outcome State Fault Refusal := .next (returnNone (s.setPc (zextAddr abc)))

end Sys2Proof.Machine
end

