-- ==== Sys2Proof/Machine/Flags.lean ====
section
/-! DEFINITION. The arithmetic and the one flag of the subset: ADD's 8-bit sum, which sets no flag (spec/42_load.md R82), and
VF as DRW's collision flag (spec/10_state.md R16, R26). -/

namespace Sys2Proof.Machine

/-- `(a + b) mod 256`, with no carry out (R82). -/
def addWrap (a b : Byte) : Byte := BitVec.ofNat 8 ((a.toNat + b.toNat) % 256)

/-- VF, the register DRW uses as its flag (R16). -/
def flagReg : VReg := 15

/-- `V[0xF] <- 0`, "no collision yet" (R87). -/
def clearCollision (s : State) : State := s.writeV flagReg 0#8

/-- `V[0xF] <- 1` when a pixel was turned off, and VF as it was otherwise (R89). -/
def noteCollision (hit : Bool) (s : State) : State := if hit then s.writeV flagReg 1#8 else s

end Sys2Proof.Machine
end

