-- ==== Sys2Proof/Machine/Display.lean ====
section
/-! DEFINITION. The display framebuffer controller: CLS and DRW (spec/43_display.md). The draw runs on a `Canvas`, the display
with the collision seen so far, and VF takes the flag at its end (log 14). -/

namespace Sys2Proof.Machine

/-- One sprite bit that is 1 at one pixel: the pixel is toggled, and a pixel turned off is a collision (R89). -/
def Canvas.toggle (k : Canvas) (row : Fin 32) (col : Fin 64) : Canvas :=
  if k.fb.pixel row col then ⟨k.fb.setPixel row col false, true⟩ else ⟨k.fb.setPixel row col true, k.hit⟩

/-- The bits `cs` of one sprite row, in order: a column past 63 stops the row, a 0 bit leaves its pixel (R85, R88). -/
def drawBits (b : Byte) (row : Fin 32) (xs : Nat) : List Nat → Canvas → Canvas
  | [], k => k
  | c :: cs, k =>
    if h : xs + c < Config.displayWidth then
      drawBits b row xs cs (if spriteBit b c then k.toggle row ⟨xs + c, h⟩ else k)
    else k

/-- The sprite rows `rs`, in order: a row past 31 stops the draw before its byte is read (R85, R88, D25). -/
def drawRows (mem : Memory) (i : Word) (xs ys : Nat) : List Nat → Canvas → Canvas
  | [], k => k
  | r :: rs, k =>
    if h : ys + r < Config.displayHeight then
      drawRows mem i xs ys rs (drawBits (spriteByte mem i r) ⟨ys + r, h⟩ xs (List.range 8) k)
    else k

/-- CLS: every pixel off; `return Some(copy of fb)` (R84). -/
def execCls (s : State) : Host.Outcome State Fault Refusal := .next (returnDisplay (s.setFb FrameBuffer.blank))

/-- DRW Vx, Vy, n (R85): the start position is read first, then VF is cleared (R87, D4), the n rows are drawn with clipping and
XOR, VF is set on a collision, and the display is returned whether or not a pixel changed (R73). -/
def execDrw (x y : VReg) (n : Height) (s : State) : Host.Outcome State Fault Refusal :=
  let xs := startColumn s x
  let ys := startRow s y
  let s₀ := clearCollision s
  let k := drawRows s₀.mem s₀.i xs ys (List.range n.val) ⟨s₀.fb, false⟩
  .next (returnDisplay (noteCollision k.hit (s₀.setFb k.fb)))

end Sys2Proof.Machine
end

