-- ==== Sys2Proof/Machine/Load.lean ====
section
/-! DEFINITION. The load and arithmetic family: LD, ADD and LDI (spec/42_load.md). VF is an ordinary destination of LD and ADD
(R81, R82). -/

namespace Sys2Proof.Machine

/-- LD Vx, kk: `V[x] <- kk; return None` (R81). -/
def execLd (x : VReg) (kk : Byte) (s : State) : Host.Outcome State Fault Refusal := .next (returnNone (s.writeV x kk))

/-- ADD Vx, kk: `V[x] <- (V[x] + kk) mod 256; return None`, no flag (R82). -/
def execAdd (x : VReg) (kk : Byte) (s : State) : Host.Outcome State Fault Refusal :=
  .next (returnNone (s.writeV x (addWrap (s.readV x) kk)))

/-- LDI addr: `I <- zext_16(abc); return None` (R83). -/
def execLdi (abc : Addr12) (s : State) : Host.Outcome State Fault Refusal := .next (returnNone (s.setI (zextAddr abc)))

end Sys2Proof.Machine
end

