-- ==== Sys2Proof/Machine/Engine.lean ====
section
/-! DEFINITION. The step with its parameter and its argument (spec/40_step.md R67, R68). -/

namespace Sys2Proof.Machine

/-- Fetch, decode and execute one instruction, or fail on one word (R68). The advance of `pc` comes before execute and, on a
decode error, only where `DECODE_ERROR_PC` says so. -/
def runOne (p : DecodeErrorPc) (s : State) : Host.Outcome State Fault Refusal :=
  match decode (fetchWord s) with
  | .ok i => exec i (advancePc s)
  | .error _ => .next (takeDecodeError p (fetchWord s) s)

/-- `step(keys)` under a value of `DECODE_ERROR_PC`: it reads nothing from the keys (R30, R75), and a core that has not been
loaded refuses it (R118). -/
def stepUnder (p : DecodeErrorPc) (_keys : Keys) (s : State) : Host.Outcome State Fault Refusal :=
  match s.phase with
  | .constructed => .refused .stepBeforeLoad
  | .loaded => runOne p s

end Sys2Proof.Machine
end

