-- ==== Sys2Proof/Machine/HostPort.lean ====
section
/-! DEFINITION. The host operations other than step, and all of them as transactions (spec/60_exceptions.md R103 to R108,
spec/70_reset_and_hazards.md R114 to R118). -/

namespace Sys2Proof.Machine

/-- `construct(STEP_FREQUENCY_HZ)`: the state after reset; a frequency that is not positive is refused (R114, D13). -/
def construct (p : Parameters) : Host.Outcome State Fault Refusal :=
  if 0 < p.stepFrequencyHz then .next State.reset else .refused .nonPositiveFrequency

/-- `load(image)` of a core that may be loaded: at most 3584 bytes go to 0x200 and on, the rest of memory is 0, and `pc` is
0x200 (R115); a longer image is a LoadError and writes nothing (R116, D12). -/
def loadPort (image : List Byte) (s : State) : LoadResult × State :=
  if image.length ≤ Config.maxImage then
    (.ok, { s with
      mem := Memory.ofImage Config.loadOffset image
      pc := BitVec.ofNat 16 Config.loadOffset
      phase := .loaded })
  else (.loadError, s)

/-- One timer counted down, 0 staying 0 (R108, D8). -/
def countDown (t : Byte) : Byte := if t = 0#8 then 0#8 else t - 1#8

/-- `timer_tick()`: both timers counted down and nothing else written (R107, R108). -/
def timerTick (s : State) : State := { s with dt := countDown s.dt, st := countDown s.st }

/-- `buzzer()`: the constant false, no function of ST (R31, D16). -/
def buzzer (_s : State) : Bool := false

/-- `clock_period()` in seconds: 1 / STEP_FREQUENCY_HZ (R32, D13). -/
def clockPeriod (p : Parameters) : Rat := 1 / p.stepFrequencyHz

/-- One host operation on a constructed core: its reply and the state after it. A step before load, a second load and a load
after steps are refused (R118, D11). -/
def transact (p : Parameters) (op : HostOp) (s : State) : Host.Outcome (HostReply × State) Fault Refusal :=
  match op with
  | .load image =>
    match s.phase with
    | .constructed => .next (.load (loadPort image s).1, (loadPort image s).2)
    | .loaded => .refused .secondLoad
  | .step keys =>
    match stepUnder p.decodeErrorPc keys s with
    | .next t => .next (.step t.reply, t)
    | .fault r => .fault r
    | .refused r => .refused r
  | .buzzer => .next (.buzzer (buzzer s), s)
  | .clockPeriod => .next (.clockPeriod (clockPeriod p), s)
  | .timerTick => .next (.ticked, timerTick s)

/-- The boot sequence of R117: construct, then one load. The state it answers is the launch state; a LoadError stops the boot,
since no run begins from it (R113). -/
def boot (p : Parameters) (image : List Byte) : Host.Outcome State Fault Refusal :=
  match construct p with
  | .next s =>
    match loadPort image s with
    | (.ok, t) => .next t
    | (.loadError, _) => .fault (.loadError image.length)
  | .fault r => .fault r
  | .refused r => .refused r

end Sys2Proof.Machine
end

