-- ==== Sys2Proof/Machine/Step.lean ====
section
/-! DEFINITION. The step of the core the host runs, and placing a word where it is fetched next. -/

namespace Sys2Proof.Machine

/-- One step of the core with the parameters `Config.parameters`. No key is held: the step reads nothing from the keys (R75),
so every other choice gives the same outcome (log 8). -/
def step (s : State) : Host.Outcome State Fault Refusal :=
  stepUnder Config.parameters.decodeErrorPc Keys.noneHeld s

/-- `s` with the low `nbits` bits of `w` stored as an instruction word at `pc`, most significant byte first (R37), in a core
that counts as loaded: it stands for the load that brings a program in (R117, log 7). -/
def State.withFetchWord (s : State) (nbits w : Nat) : State :=
  let word : Word := BitVec.ofNat 16 (w % 2 ^ nbits)
  { s with
    mem := (s.mem.write s.pc.toNat (highByte word)).write (s.pc.toNat + 1) (lowByte word)
    phase := .loaded }

end Sys2Proof.Machine
end

