-- ==== Sys2Proof/Safety.lean ====
section
/-! DEFINITION. What a safe run is, in the terms the claims use: the invariant of the spec's own ranges, the states a run
reaches (spec/70_reset_and_hazards.md R117), and a run without a recorded DecodeError (spec/60_exceptions.md R113). -/

namespace Sys2Proof.Machine

/-- The invariant: memory in its canonical form, `pc` and I below 4096 (R18, R22, R34). -/
structure State.Inv (s : State) : Prop where
  mem_wf : s.mem.wf = true
  pc_lt : s.pc.toNat < 4096
  i_lt : s.i.toNat < 4096

/-- The parts no instruction of the subset ever writes, at their reset values: the stack, its depth counter and the timers
(R23, R25). -/
structure State.Quiet (s : State) : Prop where
  stack_zero : s.stack = Vector.replicate 16 0#16
  sp_zero : s.sp = 0
  dt_zero : s.dt = 0#8
  st_zero : s.st = 0#8

/-- What holds in a run of `image` from its launch state on: the ranges, the parts nothing writes, the load done, and memory
still the image over zero fill (R18, R22, R23, R25, R44, R115). -/
structure State.RunInv (image : List Byte) (s : State) : Prop where
  inv : s.Inv
  quiet : s.Quiet
  is_loaded : s.phase = .loaded
  mem_image : ∀ a, a < 4096 →
    s.mem.read a = if 0x200 ≤ a ∧ a < 0x200 + image.length then image.getD (a - 0x200) 0#8 else 0#8

/-- The run is faulted: a DecodeError has been recorded (R113, D17). -/
def State.faulted (s : State) : Bool := !s.decodeErrors.isEmpty

/-- The states a run reaches from a boot with `image`: the launch state, and what steps and timer ticks make of it (R117). -/
inductive Reachable (p : Parameters) (image : List Byte) : State → Prop where
  | launch {s : State} : boot p image = .next s → Reachable p image s
  | step {s t : State} (keys : Keys) : Reachable p image s → stepUnder p.decodeErrorPc keys s = .next t →
      Reachable p image t
  | tick {s : State} : Reachable p image s → Reachable p image (timerTick s)

/-- A state reached by a run that has met no DecodeError: what a claim about instructions may assume (R113, D17). -/
def SafeReachable (p : Parameters) (image : List Byte) (s : State) : Prop := Reachable p image s ∧ s.faulted = false

/-- The set S of R90, the visible sprite pixels of `DRW Vx, Vy, n` in the state `s`: the pairs `(ys + r, xs + c)` with `r < n`
and bit `7 - c` of `mem[(I + r) mod 4096]` equal to 1; a `row` below 32 and a `col` below 64 are the clip. -/
def InSprite (s : State) (x y : VReg) (n : Height) (row : Fin 32) (col : Fin 64) : Prop :=
  ∃ r c : Nat, r < n.val ∧ c < 8 ∧ row.val = (s.readV y).toNat % 32 + r ∧ col.val = (s.readV x).toNat % 64 + c ∧
    (s.mem.read ((s.i.toNat + r) % 4096)).getLsbD (7 - c) = true

end Sys2Proof.Machine
end

