-- ==== Sys2Proof/Certificates/Slice0/Obligations.lean ====
section
/-! DEFINITION. The statements for the provers: what spec/'s numbered rules say the core does, over every state. Fields
`phase`, `reply` and `decodeErrors` of State are the model's own (log 1, log 3, log 7). -/

open Sys2Proof Sys2Proof.Machine

/-! ### The decoder and the encoding -/

/-- One word of every family, written out from the encodings of 30_encoding.md R52, and words of every range of R62
(95_test_vectors.md, L2 Decoder). -/
def Obligations.TableWordsDecodeAsListed : Prop :=
  decode 0x0000#16 = .ok .nop ∧ decode 0x00E0#16 = .ok .cls ∧ decode 0x1FFF#16 = .ok (.jp 0xFFF#12) ∧
  decode 0x6FFF#16 = .ok (.ld 15 0xFF#8) ∧ decode 0x7A01#16 = .ok (.add 10 0x01#8) ∧
  decode 0xA123#16 = .ok (.ldi 0x123#12) ∧ decode 0xD12F#16 = .ok (.drw 1 2 15) ∧
  decode 0x0001#16 = .error (.noPattern 0x0001#16) ∧ decode 0x00DF#16 = .error (.noPattern 0x00DF#16) ∧
  decode 0x00EE#16 = .error (.noPattern 0x00EE#16) ∧ decode 0x2000#16 = .error (.noPattern 0x2000#16) ∧
  decode 0x8000#16 = .error (.noPattern 0x8000#16) ∧ decode 0xCFFF#16 = .error (.noPattern 0xCFFF#16) ∧
  decode 0xFFFF#16 = .error (.noPattern 0xFFFF#16)

/-- R58, R60, R61: the decoder as the rule gives it, with every field as a number of the word (`w[15:12]` is `w / 4096`, `x` is
`w / 256 mod 16`, `y` is `w / 16 mod 16`, `n` is `w mod 16`, `kk` is `w mod 256`, `abc` is `w mod 4096`). -/
def Obligations.DecoderReadsTheSevenPatterns : Prop :=
  ∀ w : Word,
    (decode w = .ok .nop ↔ w.toNat = 0x0000) ∧
    (decode w = .ok .cls ↔ w.toNat = 0x00E0) ∧
    (w.toNat / 4096 = 0x1 → decode w = .ok (.jp (BitVec.ofNat 12 (w.toNat % 4096)))) ∧
    (w.toNat / 4096 = 0x6 →
      decode w = .ok (.ld (Fin.ofNat 16 (w.toNat / 256 % 16)) (BitVec.ofNat 8 (w.toNat % 256)))) ∧
    (w.toNat / 4096 = 0x7 →
      decode w = .ok (.add (Fin.ofNat 16 (w.toNat / 256 % 16)) (BitVec.ofNat 8 (w.toNat % 256)))) ∧
    (w.toNat / 4096 = 0xA → decode w = .ok (.ldi (BitVec.ofNat 12 (w.toNat % 4096)))) ∧
    (w.toNat / 4096 = 0xD →
      decode w = .ok (.drw (Fin.ofNat 16 (w.toNat / 256 % 16)) (Fin.ofNat 16 (w.toNat / 16 % 16))
        (Fin.ofNat 16 (w.toNat % 16)))) ∧
    (w.toNat ≠ 0x0000 → w.toNat ≠ 0x00E0 → w.toNat / 4096 ∉ [0x1, 0x6, 0x7, 0xA, 0xD] →
      decode w = .error (.noPattern w))

/-- Decode and encode agree: every instruction, with every operand at every value, is what the decoder reads from its word. A
term of `Instr` is well-formed by its types. -/
def Obligations.DecodeOfEncodeIsTheInstruction : Prop := ∀ i : Instr, decode (encode i) = .ok i

/-- Every word that decodes is the word of the instruction it decodes to: no word has two meanings and no bit is dropped. -/
def Obligations.EncodeOfDecodeIsTheWord : Prop := ∀ (w : Word) (i : Instr), decode w = .ok i → encode i = w

/-- The words of R62's table are exactly the decode errors, and they number 45,054, the count the spec derives. -/
def Obligations.DecodeErrorWordsAreTheSixRanges : Prop :=
  (∀ w : Word, (∃ e, decode w = .error e) ↔
    (0x0001 ≤ w.toNat ∧ w.toNat ≤ 0x00DF) ∨ (0x00E1 ≤ w.toNat ∧ w.toNat ≤ 0x0FFF) ∨
    (0x2000 ≤ w.toNat ∧ w.toNat ≤ 0x5FFF) ∨ (0x8000 ≤ w.toNat ∧ w.toNat ≤ 0x9FFF) ∨
    (0xB000 ≤ w.toNat ∧ w.toNat ≤ 0xCFFF) ∨ (0xE000 ≤ w.toNat ∧ w.toNat ≤ 0xFFFF)) ∧
  (Finset.univ.filter fun w : Fin 65536 => (decode (BitVec.ofFin w)).toBool = false).card = 45054

/-- The rows of the opcode table are pairwise disjoint, and the decoder answers an instruction of a row exactly where the row
accepts the word, so the order of the tests does not matter (the spec derives it from R58). -/
def Obligations.PatternsArePairwiseDisjoint : Prop :=
  (∀ r ∈ opcodeTable, ∀ r' ∈ opcodeTable, ∀ w : Word, r.accepts w = true → r'.accepts w = true → r = r') ∧
  (∀ r ∈ opcodeTable, ∀ w : Word, r.accepts w = true ↔ ∃ i, decode w = .ok i ∧ i.row = r)

/-- The assembler syntax the spec adopts (its own decision D10, R65, log 20): for each line form, the two bytes of R65's
encoding, the most significant first, exactly when every operand is in R65's range (addr up to 0xFFF, x and y up to 0xF, kk up to
0xFF, n up to 15), and none otherwise; for a data line the listed bytes exactly when each is at most 0xFF. `wellFormed` is that
check, and the two bytes of an instruction line decode to its instruction. -/
def Obligations.AssemblerRefusesOutOfRangeOperands : Prop :=
  (AsmLine.nop.assemble = some [0x00#8, 0x00#8]) ∧
  (AsmLine.cls.assemble = some [0x00#8, 0xE0#8]) ∧
  (∀ addr : Nat, (AsmLine.jp addr).assemble = if addr ≤ 0xFFF then
      some [BitVec.ofNat 8 ((0x1000 + addr) / 256), BitVec.ofNat 8 ((0x1000 + addr) % 256)] else none) ∧
  (∀ x kk : Nat, (AsmLine.ld x kk).assemble = if x ≤ 0xF ∧ kk ≤ 0xFF then
      some [BitVec.ofNat 8 (0x60 + x), BitVec.ofNat 8 kk] else none) ∧
  (∀ x kk : Nat, (AsmLine.add x kk).assemble = if x ≤ 0xF ∧ kk ≤ 0xFF then
      some [BitVec.ofNat 8 (0x70 + x), BitVec.ofNat 8 kk] else none) ∧
  (∀ addr : Nat, (AsmLine.ldi addr).assemble = if addr ≤ 0xFFF then
      some [BitVec.ofNat 8 ((0xA000 + addr) / 256), BitVec.ofNat 8 ((0xA000 + addr) % 256)] else none) ∧
  (∀ x y n : Nat, (AsmLine.drw x y n).assemble = if x ≤ 0xF ∧ y ≤ 0xF ∧ n ≤ 15 then
      some [BitVec.ofNat 8 (0xD0 + x), BitVec.ofNat 8 (16 * y + n)] else none) ∧
  (∀ bs : List Nat, (AsmLine.bytes bs).assemble = if ∀ b ∈ bs, b ≤ 0xFF then
      some (bs.map (BitVec.ofNat 8)) else none) ∧
  (∀ l : AsmLine, (l.assemble.isSome = l.wellFormed) ∧
    (∀ i, l.instr? = some i → ∃ hi lo, l.assemble = some [hi, lo] ∧ decodeBytes hi lo = .ok i))

/-! ### Fetch, advance and the step -/

/-- The word at `pc` is `256 * mem[pc] + mem[(pc + 1) mod 4096]` (R37, R69; that the second address wraps at 0xFFF is the spec's
own decision D2, log 15). -/
def Obligations.FetchIsBigEndianAndWraps : Prop :=
  ∀ s : State, (fetchWord s).toNat = 256 * (s.mem.read s.pc.toNat).toNat + (s.mem.read ((s.pc.toNat + 1) % 4096)).toNat

/-- R68 and R70: when the two bytes at `pc` decode to `i`, the step is `exec i` with `pc` already advanced by 2 modulo 4096 (0xFFE
to 0x000, 0xFFF to 0x001), and JP overwrites that `pc`. That the second byte of a fetch at 0xFFF stands at 0x000 is the spec's own
decision D2 (log 15), and that a step runs only after the load its decision D11 (log 7). It holds of `stepUnder` at both values
of the parameter and of `step`. -/
def Obligations.StepRunsTheDecodedInstruction : Prop :=
  (∀ (p : DecodeErrorPc) (keys : Keys) (s : State) (hi lo : Byte) (i : Instr),
    s.phase = .loaded → s.mem.read s.pc.toNat = hi → s.mem.read ((s.pc.toNat + 1) % 4096) = lo →
    decodeBytes hi lo = .ok i →
    stepUnder p keys s = exec i { s with pc := BitVec.ofNat 16 ((s.pc.toNat + 2) % 4096) } ∧
    Machine.step s = exec i { s with pc := BitVec.ofNat 16 ((s.pc.toNat + 2) % 4096) }) ∧
  nextPc 0xFFE#16 = 0x000#16 ∧ nextPc 0xFFF#16 = 0x001#16 ∧
  (∀ (abc : Addr12) (s : State), ∃ t, exec (.jp abc) s = .next t ∧ t.pc.toNat = abc.toNat)

/-- R77: the core has no terminal or halted state. Once loaded, every step answers a next state, also on a word that does not
decode, and so does a run of any number of steps. -/
def Obligations.LoadedCoreNeverHalts : Prop :=
  (∀ (p : DecodeErrorPc) (keys : Keys) (s : State), s.phase = .loaded →
    ∃ t, stepUnder p keys s = .next t ∧ t.phase = .loaded) ∧
  (∀ (k : Nat) (s : State), s.phase = .loaded → ∃ t, Host.Core.run Sys2Proof.core k s = .next t ∧ t.phase = .loaded)

/-- R75: the step reads nothing from `keys`. -/
def Obligations.KeysNeverMatter : Prop :=
  ∀ (p : DecodeErrorPc) (keys keys' : Keys) (s : State), stepUnder p keys s = stepUnder p keys' s

/-- R73: CLS and DRW always return the display as it stands at the end of the instruction, and the other five return None. -/
def Obligations.OnlyClsAndDrwReturnTheDisplay : Prop :=
  (∀ s : State, ∃ t, exec .cls s = .next t ∧ t.reply = some (.ok (some t.fb))) ∧
  (∀ (x y : VReg) (n : Height) (s : State), ∃ t, exec (.drw x y n) s = .next t ∧ t.reply = some (.ok (some t.fb))) ∧
  (∀ s : State, ∃ t, exec .nop s = .next t ∧ t.reply = some (.ok none)) ∧
  (∀ (abc : Addr12) (s : State), ∃ t, exec (.jp abc) s = .next t ∧ t.reply = some (.ok none)) ∧
  (∀ (x : VReg) (kk : Byte) (s : State), ∃ t, exec (.ld x kk) s = .next t ∧ t.reply = some (.ok none)) ∧
  (∀ (x : VReg) (kk : Byte) (s : State), ∃ t, exec (.add x kk) s = .next t ∧ t.reply = some (.ok none)) ∧
  (∀ (abc : Addr12) (s : State), ∃ t, exec (.ldi abc) s = .next t ∧ t.reply = some (.ok none))

/-- Zero-filled memory runs NOP after NOP (the spec derives it, 20_memory.md section 5): from a loaded core whose memory reads 0
everywhere, `k` steps leave `pc` at `(pc + 2 k) mod 4096` and change nothing else but the step's reply. -/
def Obligations.ZeroMemoryRunsNopsAndWraps : Prop :=
  ∀ (k : Nat) (s : State), s.phase = .loaded → s.pc.toNat < 4096 → (∀ a, s.mem.read a = 0#8) →
    ∃ t, Host.Core.run Sys2Proof.core k s = .next t ∧ t.pc.toNat = (s.pc.toNat + 2 * k) % 4096 ∧
      t = { s with pc := t.pc, reply := t.reply }

/-! ### DecodeError -/

/-- A DecodeError is precise (R71, R95): nothing changes but `pc`, which follows `DECODE_ERROR_PC` (OPEN, D5), and the model's
own `reply` and `decodeErrors`, which receive the fetched word and the fetch address (D6, D17, log 2, log 3). -/
def Obligations.DecodeErrorIsPrecise : Prop :=
  ∀ (keys : Keys) (s : State) (e : DecodeReject), s.phase = .loaded → decode (fetchWord s) = .error e →
    stepUnder .retain keys s = .next { s with
      reply := some (.err ⟨fetchWord s, s.pc⟩), decodeErrors := s.decodeErrors ++ [⟨fetchWord s, s.pc⟩] } ∧
    stepUnder .advance keys s = .next { s with
      pc := BitVec.ofNat 16 ((s.pc.toNat + 2) % 4096)
      reply := some (.err ⟨fetchWord s, s.pc⟩), decodeErrors := s.decodeErrors ++ [⟨fetchWord s, s.pc⟩] } ∧
    Machine.step s = stepUnder Config.parameters.decodeErrorPc keys s

/-- After a DecodeError the host may call step again (R101, under the spec's D5): under Retain the same word fails again with
the same report, and under Advance the next step fetches the next word (its second byte at 0x000 when the first stands at 0xFFF:
the spec's own decision D2, log 15). -/
def Obligations.StepAfterDecodeErrorGoesOn : Prop :=
  ∀ (keys : Keys) (s : State) (e : DecodeReject), s.phase = .loaded → decode (fetchWord s) = .error e →
    (∃ t u, stepUnder .retain keys s = .next t ∧ stepUnder .retain keys t = .next u ∧
      u.pc = s.pc ∧ t.reply = some (.err ⟨fetchWord s, s.pc⟩) ∧ u.reply = t.reply) ∧
    (∃ t u, stepUnder .advance keys s = .next t ∧ stepUnder .advance keys t = .next u ∧
      (fetchWord t).toNat =
        256 * (s.mem.read ((s.pc.toNat + 2) % 4096)).toNat + (s.mem.read ((s.pc.toNat + 3) % 4096)).toNat)

/-- A recorded DecodeError is never cleared (the model's treatment under the spec's D17, log 3): no step, instruction or timer
tick removes one, so a faulted run stays faulted. -/
def Obligations.RecordedErrorsAreNeverCleared : Prop :=
  (∀ (p : DecodeErrorPc) (keys : Keys) (s t : State), stepUnder p keys s = .next t →
    (∃ es, t.decodeErrors = s.decodeErrors ++ es) ∧ (s.faulted = true → t.faulted = true)) ∧
  (∀ s : State, (timerTick s).decodeErrors = s.decodeErrors)

/-! ### NOP, JP, LD, ADD, LDI -/

/-- R79: 0x0000 is NOP, zero-filled memory decodes to it, and a step that fetches it changes nothing but `pc`, which advances by
2 (with the wrap of R70); the reply is None. -/
def Obligations.NopChangesNothingButPc : Prop :=
  decode 0x0000#16 = .ok .nop ∧
  (∀ s : State, exec .nop s = .next { s with reply := some (.ok none) }) ∧
  (∀ (p : DecodeErrorPc) (keys : Keys) (s : State), s.phase = .loaded → s.mem.read s.pc.toNat = 0#8 →
    s.mem.read ((s.pc.toNat + 1) % 4096) = 0#8 →
    stepUnder p keys s = .next { s with
      pc := BitVec.ofNat 16 ((s.pc.toNat + 2) % 4096), reply := some (.ok none) })

/-- R80: 0x1abc is JP; it sets `pc` to `zext_16(abc)`, whatever `pc` was and also when `abc` is odd, writes nothing else and
returns None. The step that fetches it leaves `pc` at `abc`, so the next fetch reads there (a jump to its own address repeats),
and a jump to 0xFFF makes it read `mem[0xFFF] ++ mem[0x000]`: that the low byte of a fetch at 0xFFF stands at 0x000, the last
clause, is the spec's own decision D2 (log 15). -/
def Obligations.JpJumpsAbsolute : Prop :=
  (∀ abc : Addr12, decode (BitVec.ofNat 16 (0x1000 + abc.toNat)) = .ok (.jp abc)) ∧
  (∀ (abc : Addr12) (s : State), ∃ t, exec (.jp abc) s = .next t ∧ t.pc.toNat = abc.toNat ∧
    t = { s with pc := t.pc, reply := some (.ok none) }) ∧
  (∀ (p : DecodeErrorPc) (keys : Keys) (abc : Addr12) (s : State), s.phase = .loaded →
    (fetchWord s).toNat = 0x1000 + abc.toNat → ∃ t, stepUnder p keys s = .next t ∧ t.pc.toNat = abc.toNat ∧
      t = { s with pc := t.pc, reply := some (.ok none) }) ∧
  (∀ s : State, s.pc.toNat = 0xFFF →
    (fetchWord s).toNat = 256 * (s.mem.read 0xFFF).toNat + (s.mem.read 0x000).toNat)

/-- R81: 0x6xkk is LD; it writes `kk` unchanged to V[x], VF included, leaves every other register and all other state, and
returns None. -/
def Obligations.LdLoadsTheImmediate : Prop :=
  (∀ (x : VReg) (kk : Byte), decode (BitVec.ofNat 16 (0x6000 + 256 * x.val + kk.toNat)) = .ok (.ld x kk)) ∧
  (∀ (x : VReg) (kk : Byte) (s : State), ∃ t, exec (.ld x kk) s = .next t ∧ t.readV x = kk ∧
    (∀ r, r ≠ x → t.readV r = s.readV r) ∧ t = { s with v := t.v, reply := some (.ok none) })

/-- R82: 0x7xkk is ADD; V[x] becomes `(V[x] + kk) mod 256`, VF included as an ordinary destination, no other register changes
(VF takes no carry), and it returns None. -/
def Obligations.AddWrapsAndSetsNoFlag : Prop :=
  (∀ (x : VReg) (kk : Byte), decode (BitVec.ofNat 16 (0x7000 + 256 * x.val + kk.toNat)) = .ok (.add x kk)) ∧
  (∀ (x : VReg) (kk : Byte) (s : State), ∃ t, exec (.add x kk) s = .next t ∧
    (t.readV x).toNat = ((s.readV x).toNat + kk.toNat) % 256 ∧
    (∀ r, r ≠ x → t.readV r = s.readV r) ∧ t = { s with v := t.v, reply := some (.ok none) })

/-- R83: 0xAabc is LDI; I becomes `zext_16(abc)`, so bits 15:12 of I are 0, nothing else changes, and it returns None. An
address in the reserved range 0x000 to 0x1FF is legal, and in a run the bytes there are zero. -/
def Obligations.LdiLoadsTheIndexRegister : Prop :=
  (∀ abc : Addr12, decode (BitVec.ofNat 16 (0xA000 + abc.toNat)) = .ok (.ldi abc)) ∧
  (∀ (abc : Addr12) (s : State), ∃ t, exec (.ldi abc) s = .next t ∧ t.i.toNat = abc.toNat ∧
    t = { s with i := t.i, reply := some (.ok none) }) ∧
  (∀ (p : Parameters) (image : List Byte) (s : State), Reachable p image s → ∀ a, a < 0x200 → s.mem.read a = 0#8)

/-- A register written by one instruction is read with its new value by the next (no hazard, 70_reset_and_hazards.md section 3;
the scenario of 95_test_vectors.md E5): LD then ADD. -/
def Obligations.LdThenAddSeesTheNewValue : Prop :=
  ∀ (x : VReg) (a b : Byte) (s : State), ∃ t u, exec (.ld x a) s = .next t ∧ exec (.add x b) t = .next u ∧
    (u.readV x).toNat = (a.toNat + b.toNat) % 256 ∧ (∀ r, r ≠ x → u.readV r = s.readV r)

/-! ### CLS and DRW -/

/-- R84: 0x00E0 is CLS; every one of the 2048 pixels is off, the display is returned whatever it held before, and nothing else
changes (VF, registers, I, memory, timers). -/
def Obligations.ClsClearsEveryPixel : Prop :=
  decode 0x00E0#16 = .ok .cls ∧
  (∀ s : State, ∃ t, exec .cls s = .next t ∧ (∀ r c, t.fb.pixel r c = false) ∧
    t = { s with fb := t.fb, reply := some (.ok (some t.fb)) })

/-- The draw algorithm of R85 refines the set form the spec derives from R85 to R89: exactly the pixels of S (`InSprite`) are
flipped, and VF is 1 if a pixel of S was on before the draw and 0 otherwise. The source address wraps by the spec's decision D3
(log 15) and the start position is read before VF is cleared by its decision D4 (log 14). -/
def Obligations.DrwFlipsExactlyTheVisibleSprite : Prop :=
  ∀ (x y : VReg) (n : Height) (s : State), ∃ t, exec (.drw x y n) s = .next t ∧
    (∀ r c, (InSprite s x y n r c → t.fb.pixel r c = !s.fb.pixel r c) ∧
      (¬ InSprite s x y n r c → t.fb.pixel r c = s.fb.pixel r c)) ∧
    ((∃ r c, InSprite s x y n r c ∧ s.fb.pixel r c = true) → t.readV 15 = 1#8) ∧
    ((∀ r c, InSprite s x y n r c → s.fb.pixel r c = false) → t.readV 15 = 0#8)

/-- The frame of DRW: 0xDxyn is DRW; it writes VF and the display and nothing else (no other register, not I, not memory, not
`pc`, not the stack or timers), VF ends as 0 or 1, and the display is returned. -/
def Obligations.DrwWritesOnlyVfAndTheDisplay : Prop :=
  (∀ (x y : VReg) (n : Height),
    decode (BitVec.ofNat 16 (0xD000 + 256 * x.val + 16 * y.val + n.val)) = .ok (.drw x y n)) ∧
  (∀ (x y : VReg) (n : Height) (s : State), ∃ t, exec (.drw x y n) s = .next t ∧
    (∀ r, r ≠ 15 → t.readV r = s.readV r) ∧ (t.readV 15 = 0#8 ∨ t.readV 15 = 1#8) ∧
    (∀ a, t.mem.read a = s.mem.read a) ∧
    t = { s with v := t.v, fb := t.fb, reply := some (.ok (some t.fb)) })

/-- R86: the sprite's top-left pixel is (row V[y] mod 32, column V[x] mod 64). When the first sprite byte has bit 7 set, that pixel
is flipped; no pixel above it or to the left of it changes; and the draw depends on its registers only through the two residues.
The residues are those from before the instruction, also when x or y is VF (the operand order of the spec's own decision D4, log
14), and the first byte is `mem[I mod 4096]` (its decision D3, log 15). -/
def Obligations.DrwStartsAtTheRegistersModuloTheDisplay : Prop :=
  (∀ (x y : VReg) (n : Height) (s : State), ∃ t, exec (.drw x y n) s = .next t ∧
    (∀ (r : Fin 32) (c : Fin 64), r.val = (s.readV y).toNat % 32 → c.val = (s.readV x).toNat % 64 → 0 < n.val →
      (s.mem.read (s.i.toNat % 4096)).getLsbD 7 = true → t.fb.pixel r c = !s.fb.pixel r c) ∧
    (∀ (r : Fin 32) (c : Fin 64), (r.val < (s.readV y).toNat % 32 ∨ c.val < (s.readV x).toNat % 64) →
      t.fb.pixel r c = s.fb.pixel r c)) ∧
  (∀ (x y x' y' : VReg) (n : Height) (s : State),
    (s.readV x).toNat % 64 = (s.readV x').toNat % 64 → (s.readV y).toNat % 32 = (s.readV y').toNat % 32 →
    exec (.drw x y n) s = exec (.drw x' y' n) s)

/-- R88: every sprite pixel with a row up to 31 and a column up to 63 is drawn (a clipped row does not end the rows after it), a
pixel that changes lies in the sprite's rectangle (nothing wraps to the opposite
edge), and clipped bits never change a pixel and never set VF: a memory that differs only in bits that fall past row 31 or
column 63 gives the same display and the same VF. The sprite is located by V[x] and V[y] as they were before VF is cleared (the
spec's own decision D4, log 14) and its rows by `(I + r) mod 4096` (its decision D3, log 15). -/
def Obligations.ClippedBitsHaveNoEffect : Prop :=
  (∀ (x y : VReg) (n : Height) (s : State), ∃ t, exec (.drw x y n) s = .next t ∧
    (∀ r c, t.fb.pixel r c ≠ s.fb.pixel r c →
      (s.readV y).toNat % 32 ≤ r.val ∧ r.val < (s.readV y).toNat % 32 + n.val ∧
      (s.readV x).toNat % 64 ≤ c.val ∧ c.val < (s.readV x).toNat % 64 + 8) ∧
    (∀ r c, InSprite s x y n r c → t.fb.pixel r c = !s.fb.pixel r c)) ∧
  (∀ (x y : VReg) (n : Height) (s : State) (m : Memory),
    (∀ r c : Nat, r < n.val → c < 8 → (s.readV y).toNat % 32 + r ≤ 31 → (s.readV x).toNat % 64 + c ≤ 63 →
      (m.read ((s.i.toNat + r) % 4096)).getLsbD (7 - c) = (s.mem.read ((s.i.toNat + r) % 4096)).getLsbD (7 - c)) →
    ∃ t u, exec (.drw x y n) s = .next t ∧ exec (.drw x y n) { s with mem := m } = .next u ∧
      u.fb = t.fb ∧ u.readV 15 = t.readV 15)

/-- R91: a draw of height 0 reads no memory, changes no pixel, sets VF to 0 and returns the display. -/
def Obligations.DrwOfHeightZeroOnlyClearsVf : Prop :=
  ∀ (x y : VReg) (s : State), ∃ t, exec (.drw x y 0) s = .next t ∧ t.fb = s.fb ∧ t.readV 15 = 0#8 ∧
    (∀ r, r ≠ 15 → t.readV r = s.readV r) ∧ t = { s with v := t.v, reply := some (.ok (some s.fb)) } ∧
    (∀ m : Memory, ∃ u, exec (.drw x y 0) { s with mem := m } = .next u ∧ u.fb = t.fb ∧ u.v = t.v)

/-- The sprite source (43_display.md and 20_memory.md section 7, with the wrap of the spec's own decision D3, log 15): the draw
reads
`mem[(I + r) mod 4096]` for r below n and no other byte, and leaves I. -/
def Obligations.DrwReadsOnlyItsSourceBytes : Prop :=
  ∀ (x y : VReg) (n : Height) (s : State) (m : Memory),
    (∀ r, r < n.val → m.read ((s.i.toNat + r) % 4096) = s.mem.read ((s.i.toNat + r) % 4096)) →
    ∃ t u, exec (.drw x y n) s = .next t ∧ exec (.drw x y n) { s with mem := m } = .next u ∧
      u = { t with mem := m } ∧ t.i = s.i

/-- The double-draw law, as the spec derives it from R86, R87 and R90: for x and y other than VF two draws in a row leave the
display as it was, and the second sets VF exactly when some pixel of S was off before the first. S takes its rows from
`(I + r) mod 4096`, the wrap of the spec's own decision D3 (log 15). -/
def Obligations.DoubleDrawRestoresTheDisplay : Prop :=
  ∀ (x y : VReg) (n : Height) (s : State), x ≠ 15 → y ≠ 15 →
    ∃ t u, exec (.drw x y n) s = .next t ∧ exec (.drw x y n) t = .next u ∧ u.fb = s.fb ∧
      (u.readV 15 = 1#8 ↔ ∃ r c, InSprite s x y n r c ∧ s.fb.pixel r c = false)

/-! ### What no instruction does -/

/-- No instruction writes memory (20_memory.md section 6, derived there): every byte reads the same after a step and after a
timer tick. -/
def Obligations.NoInstructionWritesMemory : Prop :=
  (∀ (i : Instr) (s : State), ∃ t, exec i s = .next t ∧ ∀ a, t.mem.read a = s.mem.read a) ∧
  (∀ (p : DecodeErrorPc) (keys : Keys) (s t : State), stepUnder p keys s = .next t →
    ∀ a, t.mem.read a = s.mem.read a) ∧
  (∀ (s : State) (a : Nat), (timerTick s).mem.read a = s.mem.read a)

/-- The writes column of the register access table (10_state.md section 2, derived there): each instruction completes and leaves
everything outside its column, and no instruction writes the stack, sp, DT, ST, memory, or the model's `phase` and
`decodeErrors`. -/
def Obligations.RegisterAccessFollowsTheTable : Prop :=
  ∀ (i : Instr) (s : State), ∃ t, exec i s = .next t ∧
    t.mem = s.mem ∧ t.stack = s.stack ∧ t.sp = s.sp ∧ t.dt = s.dt ∧ t.st = s.st ∧ t.phase = s.phase ∧
    t.decodeErrors = s.decodeErrors ∧
    match i with
    | .nop => t.v = s.v ∧ t.i = s.i ∧ t.pc = s.pc ∧ t.fb = s.fb
    | .cls => t.v = s.v ∧ t.i = s.i ∧ t.pc = s.pc
    | .jp _ => t.v = s.v ∧ t.i = s.i ∧ t.fb = s.fb
    | .ld x _ => (∀ r, r ≠ x → t.readV r = s.readV r) ∧ t.i = s.i ∧ t.pc = s.pc ∧ t.fb = s.fb
    | .add x _ => (∀ r, r ≠ x → t.readV r = s.readV r) ∧ t.i = s.i ∧ t.pc = s.pc ∧ t.fb = s.fb
    | .ldi _ => t.v = s.v ∧ t.pc = s.pc ∧ t.fb = s.fb
    | .drw _ _ _ => (∀ r, r ≠ 15 → t.readV r = s.readV r) ∧ t.i = s.i ∧ t.pc = s.pc

/-- The reads column for the stack and the timers (10_state.md sections 2, 5 and 6): no instruction reads `stack`, `sp`, `DT` or
`ST`, so a step from a state with other values there does the same to everything else. -/
def Obligations.StackAndTimersNeverInfluenceAStep : Prop :=
  ∀ (p : DecodeErrorPc) (keys : Keys) (s t : State) (stack : Vector Word 16) (sp : Fin 17) (dt st : Byte),
    stepUnder p keys s = .next t →
    stepUnder p keys { s with stack := stack, sp := sp, dt := dt, st := st } =
      .next { t with stack := stack, sp := sp, dt := dt, st := st }

/-! ### Invariants and reachable states -/

/-- Every step keeps the invariant: memory canonical, `pc` and I below 4096 (10_state.md R18, R22; 20_memory.md R34). -/
def Obligations.EveryStepKeepsTheInvariant : Prop :=
  (∀ (p : DecodeErrorPc) (keys : Keys) (s t : State), s.Inv → stepUnder p keys s = .next t → t.Inv) ∧
  (∀ s t : State, s.Inv → Machine.step s = .next t → t.Inv)

/-- The invariant holds right after construction. -/
def Obligations.ResetHoldsTheInvariant : Prop := State.reset.Inv ∧ State.reset.Quiet

/-- A successful load of any image gives canonical memory and keeps the invariant. -/
def Obligations.LoadKeepsTheInvariant : Prop :=
  ∀ (image : List Byte) (s : State), s.Inv → (loadPort image s).2.Inv

/-- Every state a run reaches, whatever DecodeErrors it met, is in the ranges the spec gives: `pc` and I below 4096, stack, sp
and timers at 0 for the whole run, and memory still the loaded image over zero fill. A run includes timer ticks, and that a
timer at 0 stays at 0 under a tick is the spec's own decision D8 (log 10), on which the timers' clause rests. -/
def Obligations.ReachableStatesStayInRange : Prop :=
  ∀ (p : Parameters) (image : List Byte) (s : State), Reachable p image s →
    s.Inv ∧ s.Quiet ∧ s.phase = .loaded ∧
    ∀ a, a < 4096 → s.mem.read a = if 0x200 ≤ a ∧ a < 0x200 + image.length then image.getD (a - 0x200) 0#8 else 0#8

/-- In a run, every DecodeError returned to the host is a recorded one, so a run without a recorded DecodeError has returned none
(60_exceptions.md section 7; the record is the model's, log 3); and every recorded one names a word that does not decode and the
address it stands at in memory (60_exceptions.md section 1, the payload being the spec's own decision D6, log 18, and the second
byte of a word at 0xFFF its decision D2, log 15). -/
def Obligations.RecordedErrorsNameTheFailingWord : Prop :=
  ∀ (p : Parameters) (image : List Byte) (s : State), Reachable p image s →
    (∀ e, s.reply = some (.err e) → e ∈ s.decodeErrors) ∧
    (SafeReachable p image s → ∀ e, s.reply ≠ some (.err e)) ∧
    (∀ e ∈ s.decodeErrors, (∃ r, decode e.word = .error r) ∧ e.addr.toNat < 4096 ∧
      e.word.toNat = 256 * (s.mem.read e.addr.toNat).toNat + (s.mem.read ((e.addr.toNat + 1) % 4096)).toNat)

/-- In every reachable state a timer tick leaves the state unchanged, since both timers are 0 (60_exceptions.md section 5; that a
timer at 0 stays at 0 is the spec's own decision D8, log 10). -/
def Obligations.TimerTicksAreNoOpsInARun : Prop :=
  ∀ (p : Parameters) (image : List Byte) (s : State), Reachable p image s → timerTick s = s

/-! ### Construction, load and the other host operations -/

/-- R104: the core is built with a configured frequency and starts fully zeroed with an empty display. -/
def Obligations.ConstructionStartsZeroed : Prop :=
  ∀ p : Parameters, 0 < p.stepFrequencyHz → ∃ s, construct p = .next s ∧
    (∀ a, s.mem.read a = 0#8) ∧ (∀ x, s.readV x = 0#8) ∧ s.i = 0#16 ∧ (∀ k : Fin 16, s.stack[k] = 0#16) ∧ s.sp = 0 ∧
    s.dt = 0#8 ∧ s.st = 0#8 ∧ (∀ r c, s.fb.pixel r c = false)

/-- The spec's own decisions about construction (D7, D13; 70_reset_and_hazards.md section 1): the first fetch address is 0x200,
and a frequency that is not positive is refused. -/
def Obligations.ConstructionSetsPcAndRefusesBadFrequency : Prop :=
  State.reset.pc = 0x200#16 ∧
  (∀ p : Parameters, 0 < p.stepFrequencyHz → construct p = .next State.reset) ∧
  (∀ p : Parameters, ¬ 0 < p.stepFrequencyHz → construct p = .refused .nonPositiveFrequency)

/-- R115: an image of at most 3584 bytes goes to 0x200 and on, every other byte of memory is 0 whatever it was, `pc` is 0x200,
and load writes no other state (but the model's `phase`). -/
def Obligations.LoadPlacesTheImageAndZeroFills : Prop :=
  ∀ (image : List Byte) (s : State), image.length ≤ 3584 →
    ∃ t, loadPort image s = (.ok, t) ∧
      (∀ a, a < 4096 →
        t.mem.read a = if 0x200 ≤ a ∧ a < 0x200 + image.length then image.getD (a - 0x200) 0#8 else 0#8) ∧
      t = { s with mem := t.mem, pc := 0x200#16, phase := .loaded }

/-- R97: LoadError is raised by the load port, exactly on an image longer than 3584 bytes, and by no step; it is surfaced before
any stepping begins. That the boot then answers no launch state and stops with a fault is the model's choice (log 12), and that
the core still refuses a step rests on the spec's own decisions D11 (log 7) and D12 (log 12, phase stays as it was). -/
def Obligations.TooLongAnImageIsALoadError : Prop :=
  (∀ (image : List Byte) (s : State), (loadPort image s).1 = .loadError ↔ 3584 < image.length) ∧
  (∀ (p : Parameters) (image : List Byte), 3584 < image.length → 0 < p.stepFrequencyHz →
    boot p image = .fault (.loadError image.length) ∧
    (∀ keys, stepUnder p.decodeErrorPc keys (loadPort image State.reset).2 = .refused .stepBeforeLoad)) ∧
  (∀ (p : DecodeErrorPc) (keys : Keys) (s : State) (r : Fault), stepUnder p keys s ≠ .fault r)

/-- A failed load writes nothing (the spec's own decision D12, log 12). -/
def Obligations.FailedLoadWritesNothing : Prop :=
  ∀ (p : Parameters) (image : List Byte) (s : State), 3584 < image.length →
    (loadPort image s).2 = s ∧
    (s.phase = .constructed → transact p (.load image) s = .next (.load .loadError, s))

/-- The boot sequence (the spec's own decision D11, log 7): a step before load is refused, and a second load, also after any
number of steps and ticks, is refused. -/
def Obligations.StepBeforeLoadAndSecondLoadAreRefused : Prop :=
  (∀ (p : DecodeErrorPc) (keys : Keys) (s : State), s.phase = .constructed →
    stepUnder p keys s = .refused .stepBeforeLoad ∧ Machine.step s = .refused .stepBeforeLoad) ∧
  (∀ (p : Parameters) (image image' : List Byte) (s : State), Reachable p image s →
    transact p (.load image') s = .refused .secondLoad)

/-- How a program comes to run (70_reset_and_hazards.md section 2, 95_test_vectors.md E8): the first step after the boot runs the
instruction of the image's first two bytes, from the launch state. -/
def Obligations.FirstStepRunsTheImage : Prop :=
  ∀ (p : Parameters) (hi lo : Byte) (rest : List Byte) (i : Instr) (keys : Keys),
    0 < p.stepFrequencyHz → rest.length ≤ 3582 → decodeBytes hi lo = .ok i →
    ∃ s, boot p (hi :: lo :: rest) = .next s ∧ stepUnder p.decodeErrorPc keys s = exec i { s with pc := 0x202#16 }

/-- `timer_tick()` (60_exceptions.md section 5): each nonzero timer goes down by 1, a timer at 0 stays at 0 (the spec's own
decision D8, from general knowledge, log 10), and nothing else is written. -/
def Obligations.TimerTickCountsDown : Prop :=
  ∀ s : State, (0 < s.dt.toNat → (timerTick s).dt.toNat = s.dt.toNat - 1) ∧ (s.dt = 0#8 → (timerTick s).dt = 0#8) ∧
    (0 < s.st.toNat → (timerTick s).st.toNat = s.st.toNat - 1) ∧ (s.st = 0#8 → (timerTick s).st = 0#8) ∧
    timerTick s = { s with dt := (timerTick s).dt, st := (timerTick s).st }

/-- The two queries (10_state.md section 9; the spec's own decisions D13, D16): the buzzer is false in every state, the clock
period times the frequency is 1 second, and a query changes nothing. -/
def Obligations.QueriesReportConstants : Prop :=
  ∀ (p : Parameters) (s : State), 0 < p.stepFrequencyHz →
    transact p .buzzer s = .next (.buzzer false, s) ∧
    (∃ d, transact p .clockPeriod s = .next (.clockPeriod d, s) ∧ d * p.stepFrequencyHz = 1)

/-! ### The invariant of a run, as a step lemma -/

/-- What holds all through a run of an image (`State.RunInv`: the ranges of pc and I, canonical memory, stack, sp and timers at 0,
loaded, and memory equal to the image over zero fill) is kept by every step, under both values of the parameter, also on a
DecodeError, and by every timer tick, from every state that has it. The timers are at 0, where the spec's own decision D8 keeps
them (log 10). -/
def Obligations.StepsAndTicksKeepTheRunInvariant : Prop :=
  (∀ (image : List Byte) (p : DecodeErrorPc) (keys : Keys) (s t : State), s.RunInv image →
    stepUnder p keys s = .next t → t.RunInv image) ∧
  (∀ (image : List Byte) (s t : State), s.RunInv image → Machine.step s = .next t → t.RunInv image) ∧
  (∀ (image : List Byte) (s : State), s.RunInv image → (timerTick s).RunInv image)
end

