-- ==== Sys2Proof/Laws/Decode.lean ====
section
/-! SUPPORT. The laws of the decoder: the fields of a word as numbers, the two bytes of a word, and the bytes-to-word round
trip. -/

namespace Sys2Proof

/-- The number of a concatenation, the first part the more significant (R8). -/
theorem append_toNat {a b : Nat} (x : BitVec a) (y : BitVec b) : (x ++ y).toNat = x.toNat * 2 ^ b + y.toNat := by
  rw [BitVec.toNat_append, ← Nat.shiftLeft_add_eq_or_of_lt y.isLt, Nat.shiftLeft_eq]

theorem nibble1_toNat (w : Word) : (nibble1 w).toNat = w.toNat / 4096 := by
  have := w.isLt
  simp [nibble1, BitVec.extractLsb'_toNat, Nat.shiftRight_eq_div_pow]; omega

theorem fieldX_val (w : Word) : (fieldX w).val = w.toNat / 256 % 16 := by
  show (w.extractLsb' 8 4).toNat = _
  simp [BitVec.extractLsb'_toNat, Nat.shiftRight_eq_div_pow]

theorem fieldY_val (w : Word) : (fieldY w).val = w.toNat / 16 % 16 := by
  show (w.extractLsb' 4 4).toNat = _
  simp [BitVec.extractLsb'_toNat, Nat.shiftRight_eq_div_pow]

theorem fieldN_val (w : Word) : (fieldN w).val = w.toNat % 16 := by
  show (w.extractLsb' 0 4).toNat = _
  simp [BitVec.extractLsb'_toNat]

theorem fieldKK_toNat (w : Word) : (fieldKK w).toNat = w.toNat % 256 := by
  simp [fieldKK, BitVec.extractLsb'_toNat]

theorem fieldABC_toNat (w : Word) : (fieldABC w).toNat = w.toNat % 4096 := by
  simp [fieldABC, BitVec.extractLsb'_toNat]

/-- A word is the number `256 * hi + lo` of its bytes (R37). -/
theorem wordOfBytes_toNat (hi lo : Byte) : (wordOfBytes hi lo).toNat = 256 * hi.toNat + lo.toNat := by
  rw [wordOfBytes, append_toNat]
  omega

theorem highByte_toNat (w : Word) : (highByte w).toNat = w.toNat / 256 := by
  have := w.isLt
  simp [highByte, BitVec.extractLsb'_toNat, Nat.shiftRight_eq_div_pow]; omega

theorem lowByte_toNat (w : Word) : (lowByte w).toNat = w.toNat % 256 := by
  simp [lowByte, BitVec.extractLsb'_toNat]

/-- The bytes of a word give the word back. -/
@[simp] theorem wordOfBytes_highByte_lowByte (w : Word) : wordOfBytes (highByte w) (lowByte w) = w := by
  apply BitVec.eq_of_toNat_eq
  rw [wordOfBytes_toNat, highByte_toNat, lowByte_toNat]
  omega

/-- The number of an opcode nibble and a 12-bit address (format A, R52). -/
theorem formatA_toNat (op : BitVec 4) (abc : Addr12) : (op ++ abc : BitVec 16).toNat = 4096 * op.toNat + abc.toNat := by
  rw [append_toNat]
  omega

/-- The number of an opcode nibble, a register number and an immediate (format XK, R52). -/
theorem formatXK_toNat (op : BitVec 4) (x : VReg) (kk : Byte) :
    (op ++ BitVec.ofFin (w := 4) x ++ kk : BitVec 16).toNat = 4096 * op.toNat + 256 * x.val + kk.toNat := by
  rw [append_toNat, append_toNat, show (BitVec.ofFin (w := 4) x).toNat = x.val from rfl]
  omega

/-- The number of an opcode nibble, two register numbers and a height (format XYN, R52). -/
theorem formatXYN_toNat (op : BitVec 4) (x y : VReg) (n : Height) :
    (op ++ BitVec.ofFin (w := 4) x ++ BitVec.ofFin (w := 4) y ++ BitVec.ofFin (w := 4) n : BitVec 16).toNat =
      4096 * op.toNat + 256 * x.val + 16 * y.val + n.val := by
  rw [append_toNat, append_toNat, append_toNat, show (BitVec.ofFin (w := 4) x).toNat = x.val from rfl,
    show (BitVec.ofFin (w := 4) y).toNat = y.val from rfl, show (BitVec.ofFin (w := 4) n).toNat = n.val from rfl]
  omega

/-- The two bytes of a word as the numbers of its high and low half. -/
theorem bytes_of_toNat (w : Word) {k : Nat} (h : w.toNat = k) :
    [highByte w, lowByte w] = [BitVec.ofNat 8 (k / 256), BitVec.ofNat 8 (k % 256)] := by
  subst h
  have := w.isLt
  congr 1
  · apply BitVec.eq_of_toNat_eq
    rw [highByte_toNat, BitVec.toNat_ofNat]; omega
  · congr 1
    apply BitVec.eq_of_toNat_eq
    rw [lowByte_toNat, BitVec.toNat_ofNat]; omega

end Sys2Proof
end

