-- ==== Sys2Proof/Laws/State.lean ====
section
/-! SUPPORT. The state laws: for each named update of the state, one lemma per field, so that no later proof unfolds a record
update. The general register read back after a write stands at the end. -/

namespace Sys2Proof.Machine

@[simp] theorem writeV_mem (s : State) (x : VReg) (b : Byte) : (s.writeV x b).mem = s.mem := rfl
@[simp] theorem writeV_v (s : State) (x : VReg) (b : Byte) : (s.writeV x b).v = s.v.set x.val b := rfl
@[simp] theorem writeV_i (s : State) (x : VReg) (b : Byte) : (s.writeV x b).i = s.i := rfl
@[simp] theorem writeV_pc (s : State) (x : VReg) (b : Byte) : (s.writeV x b).pc = s.pc := rfl
@[simp] theorem writeV_stack (s : State) (x : VReg) (b : Byte) : (s.writeV x b).stack = s.stack := rfl
@[simp] theorem writeV_sp (s : State) (x : VReg) (b : Byte) : (s.writeV x b).sp = s.sp := rfl
@[simp] theorem writeV_dt (s : State) (x : VReg) (b : Byte) : (s.writeV x b).dt = s.dt := rfl
@[simp] theorem writeV_st (s : State) (x : VReg) (b : Byte) : (s.writeV x b).st = s.st := rfl
@[simp] theorem writeV_fb (s : State) (x : VReg) (b : Byte) : (s.writeV x b).fb = s.fb := rfl
@[simp] theorem writeV_phase (s : State) (x : VReg) (b : Byte) : (s.writeV x b).phase = s.phase := rfl
@[simp] theorem writeV_reply (s : State) (x : VReg) (b : Byte) : (s.writeV x b).reply = s.reply := rfl
@[simp] theorem writeV_decodeErrors (s : State) (x : VReg) (b : Byte) : (s.writeV x b).decodeErrors = s.decodeErrors := rfl

@[simp] theorem setI_mem (s : State) (w : Word) : (s.setI w).mem = s.mem := rfl
@[simp] theorem setI_v (s : State) (w : Word) : (s.setI w).v = s.v := rfl
@[simp] theorem setI_i (s : State) (w : Word) : (s.setI w).i = w := rfl
@[simp] theorem setI_pc (s : State) (w : Word) : (s.setI w).pc = s.pc := rfl
@[simp] theorem setI_stack (s : State) (w : Word) : (s.setI w).stack = s.stack := rfl
@[simp] theorem setI_sp (s : State) (w : Word) : (s.setI w).sp = s.sp := rfl
@[simp] theorem setI_dt (s : State) (w : Word) : (s.setI w).dt = s.dt := rfl
@[simp] theorem setI_st (s : State) (w : Word) : (s.setI w).st = s.st := rfl
@[simp] theorem setI_fb (s : State) (w : Word) : (s.setI w).fb = s.fb := rfl
@[simp] theorem setI_phase (s : State) (w : Word) : (s.setI w).phase = s.phase := rfl
@[simp] theorem setI_reply (s : State) (w : Word) : (s.setI w).reply = s.reply := rfl
@[simp] theorem setI_decodeErrors (s : State) (w : Word) : (s.setI w).decodeErrors = s.decodeErrors := rfl

@[simp] theorem setPc_mem (s : State) (w : Word) : (s.setPc w).mem = s.mem := rfl
@[simp] theorem setPc_v (s : State) (w : Word) : (s.setPc w).v = s.v := rfl
@[simp] theorem setPc_i (s : State) (w : Word) : (s.setPc w).i = s.i := rfl
@[simp] theorem setPc_pc (s : State) (w : Word) : (s.setPc w).pc = w := rfl
@[simp] theorem setPc_stack (s : State) (w : Word) : (s.setPc w).stack = s.stack := rfl
@[simp] theorem setPc_sp (s : State) (w : Word) : (s.setPc w).sp = s.sp := rfl
@[simp] theorem setPc_dt (s : State) (w : Word) : (s.setPc w).dt = s.dt := rfl
@[simp] theorem setPc_st (s : State) (w : Word) : (s.setPc w).st = s.st := rfl
@[simp] theorem setPc_fb (s : State) (w : Word) : (s.setPc w).fb = s.fb := rfl
@[simp] theorem setPc_phase (s : State) (w : Word) : (s.setPc w).phase = s.phase := rfl
@[simp] theorem setPc_reply (s : State) (w : Word) : (s.setPc w).reply = s.reply := rfl
@[simp] theorem setPc_decodeErrors (s : State) (w : Word) : (s.setPc w).decodeErrors = s.decodeErrors := rfl

@[simp] theorem setFb_mem (s : State) (f : FrameBuffer) : (s.setFb f).mem = s.mem := rfl
@[simp] theorem setFb_v (s : State) (f : FrameBuffer) : (s.setFb f).v = s.v := rfl
@[simp] theorem setFb_i (s : State) (f : FrameBuffer) : (s.setFb f).i = s.i := rfl
@[simp] theorem setFb_pc (s : State) (f : FrameBuffer) : (s.setFb f).pc = s.pc := rfl
@[simp] theorem setFb_stack (s : State) (f : FrameBuffer) : (s.setFb f).stack = s.stack := rfl
@[simp] theorem setFb_sp (s : State) (f : FrameBuffer) : (s.setFb f).sp = s.sp := rfl
@[simp] theorem setFb_dt (s : State) (f : FrameBuffer) : (s.setFb f).dt = s.dt := rfl
@[simp] theorem setFb_st (s : State) (f : FrameBuffer) : (s.setFb f).st = s.st := rfl
@[simp] theorem setFb_fb (s : State) (f : FrameBuffer) : (s.setFb f).fb = f := rfl
@[simp] theorem setFb_phase (s : State) (f : FrameBuffer) : (s.setFb f).phase = s.phase := rfl
@[simp] theorem setFb_reply (s : State) (f : FrameBuffer) : (s.setFb f).reply = s.reply := rfl
@[simp] theorem setFb_decodeErrors (s : State) (f : FrameBuffer) : (s.setFb f).decodeErrors = s.decodeErrors := rfl

@[simp] theorem returnNone_mem (s : State) : (returnNone s).mem = s.mem := rfl
@[simp] theorem returnNone_v (s : State) : (returnNone s).v = s.v := rfl
@[simp] theorem returnNone_i (s : State) : (returnNone s).i = s.i := rfl
@[simp] theorem returnNone_pc (s : State) : (returnNone s).pc = s.pc := rfl
@[simp] theorem returnNone_stack (s : State) : (returnNone s).stack = s.stack := rfl
@[simp] theorem returnNone_sp (s : State) : (returnNone s).sp = s.sp := rfl
@[simp] theorem returnNone_dt (s : State) : (returnNone s).dt = s.dt := rfl
@[simp] theorem returnNone_st (s : State) : (returnNone s).st = s.st := rfl
@[simp] theorem returnNone_fb (s : State) : (returnNone s).fb = s.fb := rfl
@[simp] theorem returnNone_phase (s : State) : (returnNone s).phase = s.phase := rfl
@[simp] theorem returnNone_reply (s : State) : (returnNone s).reply = some (.ok none) := rfl
@[simp] theorem returnNone_decodeErrors (s : State) : (returnNone s).decodeErrors = s.decodeErrors := rfl

@[simp] theorem returnDisplay_mem (s : State) : (returnDisplay s).mem = s.mem := rfl
@[simp] theorem returnDisplay_v (s : State) : (returnDisplay s).v = s.v := rfl
@[simp] theorem returnDisplay_i (s : State) : (returnDisplay s).i = s.i := rfl
@[simp] theorem returnDisplay_pc (s : State) : (returnDisplay s).pc = s.pc := rfl
@[simp] theorem returnDisplay_stack (s : State) : (returnDisplay s).stack = s.stack := rfl
@[simp] theorem returnDisplay_sp (s : State) : (returnDisplay s).sp = s.sp := rfl
@[simp] theorem returnDisplay_dt (s : State) : (returnDisplay s).dt = s.dt := rfl
@[simp] theorem returnDisplay_st (s : State) : (returnDisplay s).st = s.st := rfl
@[simp] theorem returnDisplay_fb (s : State) : (returnDisplay s).fb = s.fb := rfl
@[simp] theorem returnDisplay_phase (s : State) : (returnDisplay s).phase = s.phase := rfl
@[simp] theorem returnDisplay_reply (s : State) : (returnDisplay s).reply = some (.ok (some s.fb)) := rfl
@[simp] theorem returnDisplay_decodeErrors (s : State) : (returnDisplay s).decodeErrors = s.decodeErrors := rfl

@[simp] theorem advancePc_mem (s : State) : (advancePc s).mem = s.mem := rfl
@[simp] theorem advancePc_v (s : State) : (advancePc s).v = s.v := rfl
@[simp] theorem advancePc_i (s : State) : (advancePc s).i = s.i := rfl
@[simp] theorem advancePc_pc (s : State) : (advancePc s).pc = nextPc s.pc := rfl
@[simp] theorem advancePc_stack (s : State) : (advancePc s).stack = s.stack := rfl
@[simp] theorem advancePc_sp (s : State) : (advancePc s).sp = s.sp := rfl
@[simp] theorem advancePc_dt (s : State) : (advancePc s).dt = s.dt := rfl
@[simp] theorem advancePc_st (s : State) : (advancePc s).st = s.st := rfl
@[simp] theorem advancePc_fb (s : State) : (advancePc s).fb = s.fb := rfl
@[simp] theorem advancePc_phase (s : State) : (advancePc s).phase = s.phase := rfl
@[simp] theorem advancePc_reply (s : State) : (advancePc s).reply = s.reply := rfl
@[simp] theorem advancePc_decodeErrors (s : State) : (advancePc s).decodeErrors = s.decodeErrors := rfl

@[simp] theorem clearCollision_mem (s : State) : (clearCollision s).mem = s.mem := rfl
@[simp] theorem clearCollision_v (s : State) : (clearCollision s).v = s.v.set 15 0#8 := rfl
@[simp] theorem clearCollision_i (s : State) : (clearCollision s).i = s.i := rfl
@[simp] theorem clearCollision_pc (s : State) : (clearCollision s).pc = s.pc := rfl
@[simp] theorem clearCollision_stack (s : State) : (clearCollision s).stack = s.stack := rfl
@[simp] theorem clearCollision_sp (s : State) : (clearCollision s).sp = s.sp := rfl
@[simp] theorem clearCollision_dt (s : State) : (clearCollision s).dt = s.dt := rfl
@[simp] theorem clearCollision_st (s : State) : (clearCollision s).st = s.st := rfl
@[simp] theorem clearCollision_fb (s : State) : (clearCollision s).fb = s.fb := rfl
@[simp] theorem clearCollision_phase (s : State) : (clearCollision s).phase = s.phase := rfl
@[simp] theorem clearCollision_reply (s : State) : (clearCollision s).reply = s.reply := rfl
@[simp] theorem clearCollision_decodeErrors (s : State) : (clearCollision s).decodeErrors = s.decodeErrors := rfl

@[simp] theorem takeDecodeError_mem (p : DecodeErrorPc) (w : Word) (s : State) : (takeDecodeError p w s).mem = s.mem := rfl
@[simp] theorem takeDecodeError_v (p : DecodeErrorPc) (w : Word) (s : State) : (takeDecodeError p w s).v = s.v := rfl
@[simp] theorem takeDecodeError_i (p : DecodeErrorPc) (w : Word) (s : State) : (takeDecodeError p w s).i = s.i := rfl
@[simp] theorem takeDecodeError_pc (p : DecodeErrorPc) (w : Word) (s : State) : (takeDecodeError p w s).pc = pcAfterDecodeError p s.pc := rfl
@[simp] theorem takeDecodeError_stack (p : DecodeErrorPc) (w : Word) (s : State) : (takeDecodeError p w s).stack = s.stack := rfl
@[simp] theorem takeDecodeError_sp (p : DecodeErrorPc) (w : Word) (s : State) : (takeDecodeError p w s).sp = s.sp := rfl
@[simp] theorem takeDecodeError_dt (p : DecodeErrorPc) (w : Word) (s : State) : (takeDecodeError p w s).dt = s.dt := rfl
@[simp] theorem takeDecodeError_st (p : DecodeErrorPc) (w : Word) (s : State) : (takeDecodeError p w s).st = s.st := rfl
@[simp] theorem takeDecodeError_fb (p : DecodeErrorPc) (w : Word) (s : State) : (takeDecodeError p w s).fb = s.fb := rfl
@[simp] theorem takeDecodeError_phase (p : DecodeErrorPc) (w : Word) (s : State) : (takeDecodeError p w s).phase = s.phase := rfl
@[simp] theorem takeDecodeError_reply (p : DecodeErrorPc) (w : Word) (s : State) : (takeDecodeError p w s).reply = some (.err ⟨w, s.pc⟩) := rfl
@[simp] theorem takeDecodeError_decodeErrors (p : DecodeErrorPc) (w : Word) (s : State) : (takeDecodeError p w s).decodeErrors = s.decodeErrors ++ [⟨w, s.pc⟩] := rfl

@[simp] theorem timerTick_mem (s : State) : (timerTick s).mem = s.mem := rfl
@[simp] theorem timerTick_v (s : State) : (timerTick s).v = s.v := rfl
@[simp] theorem timerTick_i (s : State) : (timerTick s).i = s.i := rfl
@[simp] theorem timerTick_pc (s : State) : (timerTick s).pc = s.pc := rfl
@[simp] theorem timerTick_stack (s : State) : (timerTick s).stack = s.stack := rfl
@[simp] theorem timerTick_sp (s : State) : (timerTick s).sp = s.sp := rfl
@[simp] theorem timerTick_dt (s : State) : (timerTick s).dt = countDown s.dt := rfl
@[simp] theorem timerTick_st (s : State) : (timerTick s).st = countDown s.st := rfl
@[simp] theorem timerTick_fb (s : State) : (timerTick s).fb = s.fb := rfl
@[simp] theorem timerTick_phase (s : State) : (timerTick s).phase = s.phase := rfl
@[simp] theorem timerTick_reply (s : State) : (timerTick s).reply = s.reply := rfl
@[simp] theorem timerTick_decodeErrors (s : State) : (timerTick s).decodeErrors = s.decodeErrors := rfl

/-! `noteCollision` writes VF alone. -/

@[simp] theorem noteCollision_mem (hit : Bool) (s : State) : (noteCollision hit s).mem = s.mem := by cases hit <;> rfl
@[simp] theorem noteCollision_i (hit : Bool) (s : State) : (noteCollision hit s).i = s.i := by cases hit <;> rfl
@[simp] theorem noteCollision_pc (hit : Bool) (s : State) : (noteCollision hit s).pc = s.pc := by cases hit <;> rfl
@[simp] theorem noteCollision_stack (hit : Bool) (s : State) : (noteCollision hit s).stack = s.stack := by cases hit <;> rfl
@[simp] theorem noteCollision_sp (hit : Bool) (s : State) : (noteCollision hit s).sp = s.sp := by cases hit <;> rfl
@[simp] theorem noteCollision_dt (hit : Bool) (s : State) : (noteCollision hit s).dt = s.dt := by cases hit <;> rfl
@[simp] theorem noteCollision_st (hit : Bool) (s : State) : (noteCollision hit s).st = s.st := by cases hit <;> rfl
@[simp] theorem noteCollision_fb (hit : Bool) (s : State) : (noteCollision hit s).fb = s.fb := by cases hit <;> rfl
@[simp] theorem noteCollision_phase (hit : Bool) (s : State) : (noteCollision hit s).phase = s.phase := by cases hit <;> rfl
@[simp] theorem noteCollision_reply (hit : Bool) (s : State) : (noteCollision hit s).reply = s.reply := by cases hit <;> rfl
@[simp] theorem noteCollision_decodeErrors (hit : Bool) (s : State) : (noteCollision hit s).decodeErrors = s.decodeErrors := by cases hit <;> rfl

/-- A register reads back what was written to it. -/
@[simp] theorem readV_writeV_same (s : State) (x : VReg) (b : Byte) : (s.writeV x b).readV x = b := by
  simp [State.readV, State.writeV]

/-- A write to one register leaves the others. -/
theorem readV_writeV_other (s : State) {x r : VReg} (b : Byte) (h : r ≠ x) : (s.writeV x b).readV r = s.readV r := by
  have : x.val ≠ r.val := fun e => h (Fin.ext e.symm)
  simp [State.readV, State.writeV, Vector.getElem_set_ne, this]

/-- VF after the collision is noted: 1 on a hit, else as before. -/
@[simp] theorem readV_noteCollision_flag (hit : Bool) (s : State) :
    (noteCollision hit s).readV flagReg = if hit then 1#8 else s.readV flagReg := by
  cases hit <;> simp [noteCollision]

/-- Noting a collision leaves every register but VF. -/
theorem readV_noteCollision_other (hit : Bool) (s : State) {r : VReg} (h : r ≠ flagReg) :
    (noteCollision hit s).readV r = s.readV r := by
  cases hit <;> simp [noteCollision, readV_writeV_other, h]

/-- Reading a register depends on the register file alone. -/
theorem readV_congr {s t : State} (h : t.v = s.v) (x : VReg) : t.readV x = s.readV x := by
  simp [State.readV, h]

@[simp] theorem readV_setFb (s : State) (f : FrameBuffer) (x : VReg) : (s.setFb f).readV x = s.readV x := rfl
@[simp] theorem readV_setPc (s : State) (w : Word) (x : VReg) : (s.setPc w).readV x = s.readV x := rfl
@[simp] theorem readV_setI (s : State) (w : Word) (x : VReg) : (s.setI w).readV x = s.readV x := rfl
@[simp] theorem readV_returnNone (s : State) (x : VReg) : (returnNone s).readV x = s.readV x := rfl
@[simp] theorem readV_returnDisplay (s : State) (x : VReg) : (returnDisplay s).readV x = s.readV x := rfl
@[simp] theorem readV_advancePc (s : State) (x : VReg) : (advancePc s).readV x = s.readV x := rfl

end Sys2Proof.Machine
end

