-- ==== Sys2Proof/Laws/Display.lean ====
section
/-! SUPPORT. The laws of the display: what a pixel reads after a write and a toggle, and what drawing the bits of one row and
the rows of one sprite does to every pixel and to the collision. -/

namespace Sys2Proof.Machine

/-- A pixel after one pixel is written. -/
theorem FrameBuffer.pixel_setPixel (fb : FrameBuffer) (row r : Fin 32) (col c : Fin 64) (b : Bool) :
    (fb.setPixel row col b).pixel r c = if r = row ∧ c = col then b else fb.pixel r c := by
  simp only [FrameBuffer.pixel, FrameBuffer.setPixel, Vector.getElem_set, Fin.ext_iff]
  by_cases hr : row.val = r.val
  · by_cases hc : col.val = c.val
    · simp [hr, hc]
    · simp [hr, Ne.symm hc, hc]
  · simp [hr, Ne.symm hr]

/-- Every pixel of a blank display is off. -/
@[simp] theorem FrameBuffer.pixel_blank (r : Fin 32) (c : Fin 64) : FrameBuffer.blank.pixel r c = false := by
  simp [FrameBuffer.pixel, FrameBuffer.blank]

/-- Two displays that agree at every pixel are equal. -/
theorem FrameBuffer.ext_pixel {f g : FrameBuffer} (h : ∀ r c, f.pixel r c = g.pixel r c) : f = g := by
  apply Vector.ext
  intro r hr
  apply Vector.ext
  intro c hc
  exact h ⟨r, hr⟩ ⟨c, hc⟩

/-- A toggle flips its pixel and leaves the others. -/
theorem Canvas.toggle_pixel (k : Canvas) (row r : Fin 32) (col c : Fin 64) :
    (k.toggle row col).fb.pixel r c = (k.fb.pixel r c ^^ (decide (r = row) && decide (c = col))) := by
  unfold Canvas.toggle
  by_cases h : r = row ∧ c = col
  · obtain ⟨rfl, rfl⟩ := h
    split <;> simp_all [FrameBuffer.pixel_setPixel]
  · have hd : (decide (r = row) && decide (c = col)) = false := by
      simpa [← Bool.not_eq_true] using h
    split <;> simp [FrameBuffer.pixel_setPixel, h, hd]

/-- A toggle is a collision when its pixel was on. -/
theorem Canvas.toggle_hit (k : Canvas) (row : Fin 32) (col : Fin 64) :
    (k.toggle row col).hit = (k.hit || k.fb.pixel row col) := by
  unfold Canvas.toggle
  split <;> simp_all

/-- The bits `a` to `a + m - 1` of a sprite row flip exactly the pixels of that row under a 1 bit. -/
theorem drawBits_pixel (b : Byte) (row r : Fin 32) (c : Fin 64) (xs a m : Nat) (k : Canvas) :
    (drawBits b row xs (List.range' a m) k).fb.pixel r c =
      (k.fb.pixel r c ^^ (decide (r = row) && decide (xs + a ≤ c.val) && decide (c.val < xs + a + m) &&
        spriteBit b (c.val - xs))) := by
  induction m generalizing a k with
  | zero =>
    have : (decide (xs + a ≤ c.val) && decide (c.val < xs + a + 0)) = false := by
      simp only [Bool.and_eq_false_iff, decide_eq_false_iff_not]; omega
    simp only [List.range', drawBits, Bool.and_assoc]
    rw [← Bool.and_assoc (decide (xs + a ≤ c.val)), this]
    simp
  | succ m ih =>
    simp only [List.range'_succ, drawBits]
    split
    · rename_i h
      rw [ih]
      have hstep : (if spriteBit b a = true then k.toggle row ⟨xs + a, h⟩ else k).fb.pixel r c =
          (k.fb.pixel r c ^^ (decide (r = row) && decide (c.val = xs + a) && spriteBit b (c.val - xs))) := by
        by_cases hs : spriteBit b a = true
        · simp only [hs, if_true, Canvas.toggle_pixel]
          by_cases hc : c.val = xs + a
          · have : c = ⟨xs + a, h⟩ := Fin.ext hc
            simp [this, hs]
          · have : ¬ c = ⟨xs + a, h⟩ := fun e => hc (by rw [e])
            simp [this, hc]
        · simp only [hs]
          by_cases hc : c.val = xs + a
          · simp [hc, hs]
          · simp [hc]
      rw [hstep, Bool.xor_assoc]
      congr 1
      by_cases hr : r = row
      · by_cases hc : c.val = xs + a
        · simp [hr, hc]
        · have e1 : decide (xs + (a + 1) ≤ c.val) = decide (xs + a ≤ c.val) := by
            simp only [decide_eq_decide]; omega
          have e2 : decide (c.val < xs + (a + 1) + m) = decide (c.val < xs + a + (m + 1)) := by
            simp only [decide_eq_decide]; omega
          simp [hr, hc, e1, e2]
      · simp [hr]
    · rename_i h
      simp only [Config.displayWidth] at h
      have hc := c.isLt
      have : decide (xs + a ≤ c.val) = false := by simp only [decide_eq_false_iff_not]; omega
      simp [this]

/-- The bits `a` to `a + m - 1` of a sprite row collide where a 1 bit meets a pixel that was on. -/
theorem drawBits_hit (b : Byte) (row : Fin 32) (xs a m : Nat) (k : Canvas) :
    (drawBits b row xs (List.range' a m) k).hit = true ↔
      k.hit = true ∨ ∃ c : Fin 64, xs + a ≤ c.val ∧ c.val < xs + a + m ∧ spriteBit b (c.val - xs) = true ∧
        k.fb.pixel row c = true := by
  induction m generalizing a k with
  | zero =>
    simp only [List.range', drawBits]
    constructor
    · exact Or.inl
    · rintro (h | ⟨c, h1, h2, -⟩)
      · exact h
      · omega
  | succ m ih =>
    simp only [List.range'_succ, drawBits]
    split
    · rename_i h
      rw [ih]
      by_cases hs : spriteBit b a = true
      · simp only [hs, if_true, Canvas.toggle_hit, Bool.or_eq_true, Canvas.toggle_pixel]
        constructor
        · rintro ((h1 | h1) | ⟨c, h1, h2, h3, h4⟩)
          · exact Or.inl h1
          · exact Or.inr ⟨⟨xs + a, h⟩, Nat.le_refl _, by simp, by simpa using hs, h1⟩
          · have : ¬ c = ⟨xs + a, h⟩ := fun e => by rw [e] at h1; simp at h1
            exact Or.inr ⟨c, by omega, by omega, h3, by simpa [this] using h4⟩
        · rintro (h1 | ⟨c, h1, h2, h3, h4⟩)
          · exact Or.inl (Or.inl h1)
          · by_cases hc : c = ⟨xs + a, h⟩
            · subst hc; exact Or.inl (Or.inr h4)
            · have hv : c.val ≠ xs + a := fun e => hc (Fin.ext e)
              exact Or.inr ⟨c, by omega, by omega, h3, by simpa [hc] using h4⟩
      · simp only [hs]
        constructor
        · rintro (h1 | ⟨c, h1, h2, h3, h4⟩)
          · exact Or.inl h1
          · exact Or.inr ⟨c, by omega, by omega, h3, h4⟩
        · rintro (h1 | ⟨c, h1, h2, h3, h4⟩)
          · exact Or.inl h1
          · have hv : c.val ≠ xs + a := fun e => by
              rw [e, Nat.add_sub_cancel_left] at h3; exact hs h3
            exact Or.inr ⟨c, by omega, by omega, h3, h4⟩
    · rename_i h
      simp only [Config.displayWidth] at h
      constructor
      · exact Or.inl
      · rintro (h1 | ⟨c, h1, -⟩)
        · exact h1
        · have := c.isLt; omega

/-- The sprite rows `a` to `a + m - 1` flip exactly the pixels under a 1 bit of their row. -/
theorem drawRows_pixel (mem : Memory) (i : Word) (xs ys a m : Nat) (r : Fin 32) (c : Fin 64) (k : Canvas) :
    (drawRows mem i xs ys (List.range' a m) k).fb.pixel r c =
      (k.fb.pixel r c ^^ (decide (ys + a ≤ r.val) && decide (r.val < ys + a + m) && decide (xs ≤ c.val) &&
        decide (c.val < xs + 8) && spriteBit (spriteByte mem i (r.val - ys)) (c.val - xs))) := by
  induction m generalizing a k with
  | zero =>
    have : (decide (ys + a ≤ r.val) && decide (r.val < ys + a)) = false := by
      simp only [Bool.and_eq_false_iff, decide_eq_false_iff_not]; omega
    simp [List.range', drawRows, this]
  | succ m ih =>
    simp only [List.range'_succ, drawRows]
    split
    · rename_i h
      rw [ih, List.range_eq_range', drawBits_pixel, Bool.xor_assoc]
      congr 1
      by_cases hr : r.val = ys + a
      · have e : r = ⟨ys + a, h⟩ := Fin.ext hr
        simp [e]
      · have e : ¬ r = ⟨ys + a, h⟩ := fun e => hr (by rw [e])
        have e1 : decide (ys + (a + 1) ≤ r.val) = decide (ys + a ≤ r.val) := by
          simp only [decide_eq_decide]; omega
        have e2 : decide (r.val < ys + (a + 1) + m) = decide (r.val < ys + a + (m + 1)) := by
          simp only [decide_eq_decide]; omega
        simp [e, e1, e2]
    · rename_i h
      simp only [Config.displayHeight] at h
      have hr := r.isLt
      have : decide (ys + a ≤ r.val) = false := by simp only [decide_eq_false_iff_not]; omega
      simp [this]

/-- The sprite rows `a` to `a + m - 1` collide where a 1 bit meets a pixel that was on before the draw: no pixel is met
twice. -/
theorem drawRows_hit (mem : Memory) (i : Word) (xs ys a m : Nat) (k : Canvas) :
    (drawRows mem i xs ys (List.range' a m) k).hit = true ↔
      k.hit = true ∨ ∃ (r : Fin 32) (c : Fin 64), ys + a ≤ r.val ∧ r.val < ys + a + m ∧ xs ≤ c.val ∧ c.val < xs + 8 ∧
        spriteBit (spriteByte mem i (r.val - ys)) (c.val - xs) = true ∧ k.fb.pixel r c = true := by
  induction m generalizing a k with
  | zero =>
    simp only [List.range', drawRows]
    constructor
    · exact Or.inl
    · rintro (h | ⟨r, c, h1, h2, -⟩)
      · exact h
      · omega
  | succ m ih =>
    simp only [List.range'_succ, drawRows]
    split
    · rename_i h
      rw [ih, List.range_eq_range', drawBits_hit]
      constructor
      · rintro ((h1 | ⟨c, h1, h2, h3, h4⟩) | ⟨r, c, h1, h2, h3, h4, h5, h6⟩)
        · exact Or.inl h1
        · exact Or.inr ⟨⟨ys + a, h⟩, c, Nat.le_refl _, by simp, by omega, by omega, by simpa using h3, h4⟩
        · have e : ¬ r = ⟨ys + a, h⟩ := fun e => by rw [e] at h1; simp at h1
          rw [drawBits_pixel] at h6
          exact Or.inr ⟨r, c, by omega, by omega, h3, h4, h5, by simpa [e] using h6⟩
      · rintro (h1 | ⟨r, c, h1, h2, h3, h4, h5, h6⟩)
        · exact Or.inl (Or.inl h1)
        · by_cases hr : r = ⟨ys + a, h⟩
          · subst hr
            exact Or.inl (Or.inr ⟨c, by omega, by omega, by simpa using h5, h6⟩)
          · have hv : r.val ≠ ys + a := fun e => hr (Fin.ext e)
            exact Or.inr ⟨r, c, by omega, by omega, h3, h4, h5, by rw [drawBits_pixel]; simpa [hr] using h6⟩
    · rename_i h
      simp only [Config.displayHeight] at h
      constructor
      · exact Or.inl
      · rintro (h1 | ⟨r, c, h1, -⟩)
        · exact h1
        · have := r.isLt; omega

/-- The set S of R90 by the pixel's own coordinates. -/
theorem inSprite_iff (s : State) (x y : VReg) (n : Height) (r : Fin 32) (c : Fin 64) :
    InSprite s x y n r c ↔
      startRow s y ≤ r.val ∧ r.val < startRow s y + n.val ∧ startColumn s x ≤ c.val ∧ c.val < startColumn s x + 8 ∧
        spriteBit (spriteByte s.mem s.i (r.val - startRow s y)) (c.val - startColumn s x) = true := by
  simp only [InSprite, startRow, startColumn, spriteBit, spriteByte, spriteAddress, Config.displayHeight,
    Config.displayWidth, Config.memSize]
  constructor
  · rintro ⟨a, b, h1, h2, h3, h4, h5⟩
    refine ⟨by omega, by omega, by omega, by omega, ?_⟩
    rw [h3, h4, Nat.add_sub_cancel_left, Nat.add_sub_cancel_left]
    exact h5
  · rintro ⟨h1, h2, h3, h4, h5⟩
    exact ⟨_, _, by omega, by omega, by omega, by omega, h5⟩

end Sys2Proof.Machine
end

