-- ==== Sys2Proof/Laws/Memory.lean ====
section
/-! SUPPORT. The laws of memory: read after write, the canonical form and that every operation keeps it, and what zero-fill
with an image reads as. -/

namespace Sys2Proof.Machine

/-- A canonical list from `lo` on holds 0 below `lo`. -/
theorem Memory.readCell_below {m : Memory} {lo x : Nat} (h : Memory.wfFrom lo m = true) (hx : x < lo) : m.readCell x = 0#8 := by
  induction m generalizing lo with
  | nil => rfl
  | cons c rest ih =>
    obtain ⟨a, b⟩ := c
    simp only [Memory.wfFrom, Bool.and_eq_true, decide_eq_true_eq] at h
    have hne : a ≠ x := by omega
    simp only [Memory.readCell, hne, if_false]
    exact ih h.2 (by omega)

/-- The canonical form from a higher address is the canonical form from a lower one. -/
theorem Memory.wfFrom_mono {m : Memory} {lo lo' : Nat} (h : Memory.wfFrom lo m = true) (hle : lo' ≤ lo) :
    Memory.wfFrom lo' m = true := by
  cases m with
  | nil => rfl
  | cons c rest =>
    obtain ⟨a, b⟩ := c
    simp only [Memory.wfFrom, Bool.and_eq_true, decide_eq_true_eq] at h ⊢
    exact ⟨⟨⟨by omega, h.1.1.2⟩, h.1.2⟩, h.2⟩

/-- Writing a cell keeps the canonical form. -/
theorem Memory.writeCell_wfFrom {m : Memory} {lo x : Nat} (b : Byte) (h : Memory.wfFrom lo m = true) (hlo : lo ≤ x)
    (hx : x < Config.memSize) : Memory.wfFrom lo (m.writeCell x b) = true := by
  induction m generalizing lo with
  | nil =>
    by_cases hb : b = 0#8
    · simp [Memory.writeCell, hb, Memory.wfFrom]
    · simp [Memory.writeCell, hb, Memory.wfFrom, hlo, hx]
  | cons c rest ih =>
    obtain ⟨a, d⟩ := c
    have h' := h
    simp only [Memory.wfFrom, Bool.and_eq_true, decide_eq_true_eq] at h'
    obtain ⟨⟨⟨hla, ham⟩, hd⟩, hrest⟩ := h'
    simp only [Memory.writeCell]
    split
    · split
      · exact h
      · rename_i hxa hb
        simp only [Memory.wfFrom, Bool.and_eq_true, decide_eq_true_eq]
        exact ⟨⟨⟨hlo, hx⟩, by simp [hb]⟩, ⟨⟨⟨by omega, ham⟩, hd⟩, hrest⟩⟩
    · split
      · rename_i hxa
        split
        · exact Memory.wfFrom_mono hrest (by omega)
        · rename_i hb
          simp only [Memory.wfFrom, Bool.and_eq_true, decide_eq_true_eq]
          exact ⟨⟨⟨hlo, hx⟩, by simp [hb]⟩, hxa ▸ hrest⟩
      · rename_i h1 h2
        simp only [Memory.wfFrom, Bool.and_eq_true, decide_eq_true_eq]
        exact ⟨⟨⟨hla, ham⟩, hd⟩, ih hrest (by omega)⟩

/-- What a canonical cell list reads as after one cell is written. -/
theorem Memory.readCell_writeCell {m : Memory} {lo : Nat} (h : Memory.wfFrom lo m = true) (x y : Nat) (b : Byte) :
    (m.writeCell x b).readCell y = if y = x then b else m.readCell y := by
  induction m generalizing lo with
  | nil =>
    by_cases hb : b = 0#8
    · simp [Memory.writeCell, hb, Memory.readCell]
    · simp only [Memory.writeCell, hb, if_false, Memory.readCell]
      by_cases hy : y = x
      · simp [hy]
      · simp [hy, Ne.symm hy]
  | cons c rest ih =>
    obtain ⟨a, d⟩ := c
    have h' := h
    simp only [Memory.wfFrom, Bool.and_eq_true, decide_eq_true_eq] at h'
    obtain ⟨⟨⟨hla, ham⟩, hd⟩, hrest⟩ := h'
    have below : ∀ z, z < a + 1 → Memory.readCell rest z = 0#8 := fun z hz => Memory.readCell_below hrest hz
    simp only [Memory.writeCell]
    split
    · rename_i hxa
      split
      · rename_i hb
        by_cases hy : y = x
        · subst hy; simp [Memory.readCell, show a ≠ y by omega, below y (by omega), hb]
        · simp [hy]
      · by_cases hy : y = x
        · simp [Memory.readCell, hy]
        · simp [Memory.readCell, hy, Ne.symm hy]
    · split
      · rename_i hxa
        subst hxa
        split
        · rename_i hb
          by_cases hy : y = x
          · subst hy; simp [below y (by omega), hb]
          · simp [Memory.readCell, hy, Ne.symm hy]
        · by_cases hy : y = x
          · simp [Memory.readCell, hy]
          · simp [Memory.readCell, hy, Ne.symm hy]
      · rename_i h1 h2
        simp only [Memory.readCell]
        by_cases hay : a = y
        · subst hay; simp [Ne.symm h2]
        · simp only [hay, if_false]; exact ih hrest

/-- Every write keeps the canonical form. -/
theorem Memory.write_wf {m : Memory} (h : m.wf = true) (a : Nat) (b : Byte) : (m.write a b).wf = true :=
  Memory.writeCell_wfFrom b h (Nat.zero_le _) (Nat.mod_lt _ (by decide))

/-- A read after a write: the byte written, where the two addresses name the same byte, and the old byte elsewhere. -/
theorem Memory.read_write {m : Memory} (h : m.wf = true) (x y : Nat) (b : Byte) :
    (m.write x b).read y = if y % 4096 = x % 4096 then b else m.read y :=
  Memory.readCell_writeCell h _ _ b

/-- Reading takes its address modulo 4096. -/
@[simp] theorem Memory.read_mod (m : Memory) (a : Nat) : m.read (a % 4096) = m.read a := by
  simp [Memory.read]

/-- Memory with nothing listed reads as 0 everywhere. -/
@[simp] theorem Memory.read_empty (a : Nat) : Memory.read [] a = 0#8 := rfl

/-- Placing an image keeps the canonical form. -/
theorem Memory.ofImage_wf (a : Nat) (image : List Byte) : (Memory.ofImage a image).wf = true := by
  induction image generalizing a with
  | nil => rfl
  | cons b bs ih => exact Memory.write_wf (ih _) a b

/-- What memory with an image placed at `a` reads as, for an image that ends inside memory: the image's byte in its range and
0 outside it. -/
theorem Memory.read_ofImage {a : Nat} {image : List Byte} (h : a + image.length ≤ 4096) {x : Nat} (hx : x < 4096) :
    (Memory.ofImage a image).read x = if a ≤ x ∧ x < a + image.length then image.getD (x - a) 0#8 else 0#8 := by
  induction image generalizing a with
  | nil =>
    simp only [Memory.ofImage, Memory.read_empty, List.length_nil, Nat.add_zero]
    split <;> simp
  | cons b bs ih =>
    simp only [List.length_cons] at h
    rw [Memory.ofImage, Memory.read_write (Memory.ofImage_wf _ _), ih (by omega), Nat.mod_eq_of_lt hx,
      Nat.mod_eq_of_lt (show a < 4096 by omega)]
    by_cases hxa : x = a
    · simp [hxa]
    · simp only [hxa, if_false, List.length_cons]
      by_cases hr : a + 1 ≤ x ∧ x < a + 1 + bs.length
      · have : x - a = (x - (a + 1)) + 1 := by omega
        rw [if_pos hr, if_pos (by omega), this, List.getD_cons_succ]
      · rw [if_neg hr, if_neg (by omega)]

/-- Two canonical cell lists that read alike are the same list. -/
theorem Memory.ext_readCell {m m' : Memory} {lo : Nat} (h : Memory.wfFrom lo m = true) (h' : Memory.wfFrom lo m' = true)
    (e : ∀ x, m.readCell x = m'.readCell x) : m = m' := by
  induction m generalizing m' lo with
  | nil =>
    cases m' with
    | nil => rfl
    | cons c rest =>
      obtain ⟨a, b⟩ := c
      simp only [Memory.wfFrom, Bool.and_eq_true, Bool.not_eq_true', decide_eq_false_iff_not] at h'
      exact absurd (by simpa [Memory.readCell] using (e a).symm) h'.1.2
  | cons c rest ih =>
    obtain ⟨a, b⟩ := c
    have k := h
    simp only [Memory.wfFrom, Bool.and_eq_true, Bool.not_eq_true', decide_eq_false_iff_not, decide_eq_true_eq] at k
    cases m' with
    | nil => exact absurd (by simpa [Memory.readCell] using e a) k.1.2
    | cons c' rest' =>
      obtain ⟨a', b'⟩ := c'
      have k' := h'
      simp only [Memory.wfFrom, Bool.and_eq_true, Bool.not_eq_true', decide_eq_false_iff_not, decide_eq_true_eq] at k'
      have haa : a = a' := by
        rcases Nat.lt_trichotomy a a' with hlt | heq | hgt
        · have := e a
          simp only [Memory.readCell, if_true, show a' ≠ a by omega, if_false,
            Memory.readCell_below k'.2 (show a < a' + 1 by omega)] at this
          exact absurd this k.1.2
        · exact heq
        · have := e a'
          simp only [Memory.readCell, if_true, show a ≠ a' by omega, if_false,
            Memory.readCell_below k.2 (show a' < a + 1 by omega)] at this
          exact absurd this.symm k'.1.2
      subst haa
      have hbb : b = b' := by simpa [Memory.readCell] using e a
      subst hbb
      have hrest : rest = rest' := by
        refine ih k.2 k'.2 fun x => ?_
        by_cases hx : a = x
        · subst hx
          rw [Memory.readCell_below k.2 (by omega), Memory.readCell_below k'.2 (by omega)]
        · simpa [Memory.readCell, hx] using e x
      rw [hrest]

/-- Memory after reset is canonical. -/
theorem reset_mem_wf : State.reset.mem.wf = true := rfl

end Sys2Proof.Machine
end

