-- ==== Sys2Proof/Laws/Exec.lean ====
section
/-! SUPPORT. What execute, a step and the host operations can do, said once: one equation per instruction, and inversion lemmas
for the step and the load. -/

namespace Sys2Proof.Machine

/-! ### The arms of execute -/

@[simp] theorem exec_nop (s : State) : exec .nop s = .next (returnNone s) := rfl
@[simp] theorem exec_cls (s : State) : exec .cls s = .next (returnDisplay (s.setFb FrameBuffer.blank)) := rfl
@[simp] theorem exec_jp (abc : Addr12) (s : State) : exec (.jp abc) s = .next (returnNone (s.setPc (zextAddr abc))) := rfl
@[simp] theorem exec_ld (x : VReg) (kk : Byte) (s : State) : exec (.ld x kk) s = .next (returnNone (s.writeV x kk)) := rfl
@[simp] theorem exec_add (x : VReg) (kk : Byte) (s : State) :
    exec (.add x kk) s = .next (returnNone (s.writeV x (addWrap (s.readV x) kk))) := rfl
@[simp] theorem exec_ldi (abc : Addr12) (s : State) : exec (.ldi abc) s = .next (returnNone (s.setI (zextAddr abc))) := rfl

/-- The canvas a draw leaves: the display and the collision (R85). -/
def drawn (s : State) (x y : VReg) (n : Height) : Canvas :=
  drawRows s.mem s.i (startColumn s x) (startRow s y) (List.range n.val) ⟨s.fb, false⟩

theorem exec_drw (x y : VReg) (n : Height) (s : State) :
    exec (.drw x y n) s =
      .next (returnDisplay (noteCollision (drawn s x y n).hit ((clearCollision s).setFb (drawn s x y n).fb))) := rfl

/-- The display a draw leaves: S flipped (R90). -/
theorem drawn_pixel (s : State) (x y : VReg) (n : Height) (r : Fin 32) (c : Fin 64) [Decidable (InSprite s x y n r c)] :
    (drawn s x y n).fb.pixel r c = (s.fb.pixel r c ^^ decide (InSprite s x y n r c)) := by
  rw [drawn, List.range_eq_range', drawRows_pixel]
  congr 1
  rw [Bool.eq_iff_iff, decide_eq_true_eq, inSprite_iff]
  simp [and_assoc]

/-- The collision of a draw: a pixel of S that was on before it (R90). -/
theorem drawn_hit (s : State) (x y : VReg) (n : Height) :
    (drawn s x y n).hit = true ↔ ∃ r c, InSprite s x y n r c ∧ s.fb.pixel r c = true := by
  rw [drawn, List.range_eq_range', drawRows_hit]
  simp only [inSprite_iff]
  simp [and_assoc]

/-- Everything a draw does: it completes, the display is the drawn one, VF is the collision, no other register changes, and only
V, the display and the reply are written. -/
theorem exec_drw_spec (x y : VReg) (n : Height) (s : State) :
    ∃ t, exec (.drw x y n) s = .next t ∧ t.fb = (drawn s x y n).fb ∧
      t.readV 15 = (if (drawn s x y n).hit then 1#8 else 0#8) ∧ (∀ r, r ≠ 15 → t.readV r = s.readV r) ∧
      t = { s with v := t.v, fb := t.fb, reply := some (.ok (some t.fb)) } := by
  refine ⟨_, exec_drw x y n s, by simp, ?_, ?_, ?_⟩
  · rw [readV_returnDisplay, show (15 : VReg) = flagReg from rfl, readV_noteCollision_flag]
    simp [clearCollision]
  · intro r h
    rw [readV_returnDisplay, readV_noteCollision_other _ _ h]
    simp [clearCollision, readV_writeV_other, show r ≠ flagReg from h]
  · cases (drawn s x y n).hit <;> rfl

/-- Execute never stops: every instruction completes in every state (R96, R99). -/
theorem exec_completes (i : Instr) (s : State) : ∃ t, exec i s = .next t := by
  cases i <;> exact ⟨_, rfl⟩

/-- What no instruction writes: memory, the stack, the timers and the model's own records (R17, R44). -/
theorem exec_keeps {i : Instr} {s t : State} (h : exec i s = .next t) :
    t.mem = s.mem ∧ t.stack = s.stack ∧ t.sp = s.sp ∧ t.dt = s.dt ∧ t.st = s.st ∧ t.phase = s.phase ∧
      t.decodeErrors = s.decodeErrors := by
  cases i <;> simp only [exec_nop, exec_cls, exec_jp, exec_ld, exec_add, exec_ldi, exec_drw, Host.Outcome.next.injEq] at h <;>
    subst h <;> simp

/-! ### Addresses -/

@[simp] theorem nextPc_toNat (a : Word) : (nextPc a).toNat = (a.toNat + 2) % 4096 := by
  simp only [nextPc, BitVec.toNat_ofNat, Config.memSize]; omega

@[simp] theorem zextAddr_toNat (abc : Addr12) : (zextAddr abc).toNat = abc.toNat := by
  have := abc.isLt
  simp only [zextAddr, BitVec.toNat_setWidth]; omega

@[simp] theorem addWrap_toNat (a b : Byte) : (addWrap a b).toNat = (a.toNat + b.toNat) % 256 := by
  simp [addWrap]

/-! ### The step -/

/-- A loaded core runs one word. -/
theorem stepUnder_loaded {p : DecodeErrorPc} {keys : Keys} {s : State} (h : s.phase = .loaded) :
    stepUnder p keys s = runOne p s := by
  simp [stepUnder, h]

/-- The step of a loaded core whose word decodes. -/
theorem stepUnder_of_decode_ok {p : DecodeErrorPc} {keys : Keys} {s : State} {i : Instr} (h : s.phase = .loaded)
    (hd : decode (fetchWord s) = .ok i) : stepUnder p keys s = exec i (advancePc s) := by
  rw [stepUnder_loaded h, runOne, hd]

/-- The step of a loaded core whose word does not decode. -/
theorem stepUnder_of_decode_error {p : DecodeErrorPc} {keys : Keys} {s : State} {e : DecodeReject} (h : s.phase = .loaded)
    (hd : decode (fetchWord s) = .error e) : stepUnder p keys s = .next (takeDecodeError p (fetchWord s) s) := by
  rw [stepUnder_loaded h, runOne, hd]

/-- Everything a step that answers a next state can do: the core was loaded, and either the fetched word decodes and the
instruction executes with the advanced `pc`, or it does not and the DecodeError is taken. -/
theorem stepUnder_cases {p : DecodeErrorPc} {keys : Keys} {s t : State} (h : stepUnder p keys s = .next t) :
    s.phase = .loaded ∧
      ((∃ i, decode (fetchWord s) = .ok i ∧ exec i (advancePc s) = .next t) ∨
        (∃ e, decode (fetchWord s) = .error e ∧ t = takeDecodeError p (fetchWord s) s)) := by
  unfold stepUnder at h
  split at h
  · cases h
  · rename_i hp
    refine ⟨hp, ?_⟩
    unfold runOne at h
    split at h
    · rename_i i hi
      exact .inl ⟨i, hi, h⟩
    · rename_i e he
      exact .inr ⟨e, he, (Host.Outcome.next.inj h).symm⟩

/-! ### The load -/

/-- Everything a load can do: an image that fits is placed, and a longer one changes nothing. -/
theorem loadPort_cases (image : List Byte) (s : State) :
    (image.length ≤ 3584 ∧ loadPort image s = (.ok, { s with
      mem := Memory.ofImage 0x200 image, pc := 0x200#16, phase := .loaded })) ∨
    (3584 < image.length ∧ loadPort image s = (.loadError, s)) := by
  unfold loadPort
  split
  · rename_i h; exact .inl ⟨h, rfl⟩
  · rename_i h; exact .inr ⟨Nat.lt_of_not_le h, rfl⟩

/-- A boot that answers a state has placed its image in the state after construction. -/
theorem boot_cases {p : Parameters} {image : List Byte} {t : State} (h : boot p image = .next t) :
    0 < p.stepFrequencyHz ∧ image.length ≤ 3584 ∧
      t = { State.reset with mem := Memory.ofImage 0x200 image, pc := 0x200#16, phase := .loaded } := by
  unfold boot construct at h
  split at h
  · rename_i s hs
    split at hs
    · rename_i hf
      cases hs
      rcases loadPort_cases image State.reset with ⟨hl, e⟩ | ⟨hl, e⟩
      · rw [e] at h
        exact ⟨hf, hl, (Host.Outcome.next.inj h).symm⟩
      · rw [e] at h; cases h
    · cases hs
  · cases h
  · cases h

/-- A word placed where the step fetches next is the word the step fetches. -/
theorem fetchWord_withFetchWord (s : State) (w : Word) (h : s.mem.wf = true) :
    fetchWord (s.withFetchWord 16 w.toNat) = w := by
  have hw : BitVec.ofNat 16 (w.toNat % 2 ^ 16) = w := by
    apply BitVec.eq_of_toNat_eq
    have := w.isLt
    simp only [BitVec.toNat_ofNat]; omega
  simp only [fetchWord, State.withFetchWord, hw]
  have h1 := Memory.write_wf h s.pc.toNat (highByte w)
  rw [Memory.read_write h1, Memory.read_write h, Memory.read_write h1, if_neg (by omega), if_pos rfl, if_pos rfl]
  exact wordOfBytes_highByte_lowByte w

end Sys2Proof.Machine
end

