-- ==== Sys2Proof/Laws/PerInstr.lean ====
section
/-! SUPPORT. Statements for all instructions, one lemma per constructor. The family `TableRow`: the word of an instruction has
the fixed bits of its row of spec/opcode_table.json, and the row is one of the table's seven. -/

namespace Sys2Proof.Laws.TableRow

/-- The word of `i` carries the fixed bits of the row of `i`, a row of the table. -/
def Statement (i : Instr) : Prop := i.row ∈ opcodeTable ∧ i.row.accepts (encode i) = true

/-- The bits of a word under the mask 0xF000 are its first nibble. -/
theorem and_opcode_mask (w : Word) : w &&& 0xF000#16 = nibble1 w ++ 0#12 := by
  apply BitVec.eq_of_getLsbD_eq
  intro i hi
  rw [BitVec.getLsbD_and, show (nibble1 w ++ 0#12 : BitVec 16).getLsbD i = _ from BitVec.getLsbD_append]
  interval_cases i <;> simp [nibble1]

/-- A word whose first nibble is that of `k` has the fixed bits of the row with mask 0xF000 and pattern `k`. -/
theorem accepts_of_nibble (name : String) (w k : Word) (h : w.toNat / 4096 = k.toNat / 4096) (hk : k.toNat % 4096 = 0) :
    OpcodeRow.accepts ⟨name, 0xF000#16, k⟩ w = true := by
  simp only [OpcodeRow.accepts, beq_iff_eq, and_opcode_mask]
  apply BitVec.eq_of_toNat_eq
  rw [append_toNat, nibble1_toNat]
  simp only [BitVec.toNat_ofNat]
  omega

theorem nop : Statement .nop := by constructor <;> decide
theorem cls : Statement .cls := by constructor <;> decide

theorem jp (abc : Addr12) : Statement (.jp abc) :=
  ⟨by simp [Instr.row, opcodeTable], accepts_of_nibble _ _ _ (by
    have := abc.isLt
    rw [encode, formatA_toNat]; simp; omega) rfl⟩

theorem ld (x : VReg) (kk : Byte) : Statement (.ld x kk) :=
  ⟨by simp [Instr.row, opcodeTable], accepts_of_nibble _ _ _ (by
    have := kk.isLt; have := x.isLt
    rw [encode, formatXK_toNat]; simp; omega) rfl⟩

theorem add (x : VReg) (kk : Byte) : Statement (.add x kk) :=
  ⟨by simp [Instr.row, opcodeTable], accepts_of_nibble _ _ _ (by
    have := kk.isLt; have := x.isLt
    rw [encode, formatXK_toNat]; simp; omega) rfl⟩

theorem ldi (abc : Addr12) : Statement (.ldi abc) :=
  ⟨by simp [Instr.row, opcodeTable], accepts_of_nibble _ _ _ (by
    have := abc.isLt
    rw [encode, formatA_toNat]; simp; omega) rfl⟩

theorem drw (x y : VReg) (n : Height) : Statement (.drw x y n) :=
  ⟨by simp [Instr.row, opcodeTable], accepts_of_nibble _ _ _ (by
    have := x.isLt; have := y.isLt; have := n.isLt
    rw [encode, formatXYN_toNat]; simp; omega) rfl⟩

end Sys2Proof.Laws.TableRow
end

