-- ==== Sys2Proof/Tests/Slice0.lean ====
section
/-! SUPPORT. The model's own tests: decodings written out from 30_encoding.md R52, the checks of well-formedness, single steps
with the results of 95_test_vectors.md, and a witness for the hypotheses of every statement that has some. -/

namespace Sys2Proof.Tests

open Sys2Proof.Machine

/-! ### Decoding (30_encoding.md R52; 95_test_vectors.md, L2 Decoder) -/

-- NOP: 0000 0000 0000 0000
theorem test_decode_nop : decode 0b0000000000000000#16 = .ok .nop := by decide
-- CLS: 0000 0000 1110 0000
theorem test_decode_cls : decode 0b0000000011100000#16 = .ok .cls := by decide
-- JP 0x300: 0001, then 0011 0000 0000
theorem test_decode_jp : decode 0b0001001100000000#16 = .ok (.jp 0x300#12) := by decide
-- LD V3, 0x42: 0110, x = 0011, kk = 0100 0010
theorem test_decode_ld : decode 0b0110001101000010#16 = .ok (.ld 3 0x42#8) := by decide
-- ADD VA, 0x01: 0111, x = 1010, kk = 0000 0001
theorem test_decode_add : decode 0b0111101000000001#16 = .ok (.add 10 0x01#8) := by decide
-- LDI 0x123: 1010, then 0001 0010 0011
theorem test_decode_ldi : decode 0b1010000100100011#16 = .ok (.ldi 0x123#12) := by decide
-- DRW V1, V2, 5: 1101, x = 0001, y = 0010, n = 0101
theorem test_decode_drw : decode 0b1101000100100101#16 = .ok (.drw 1 2 5) := by decide

/-- The decoder on the table's numbering, and a word of standard CHIP-8 (RET) that this core refuses by name. -/
theorem test_decode_table_word :
    decodeTableWord 16 0xDFFF = some (.drw 15 15 15) ∧ decodeTableWord 16 0x00EE = none ∧
      decode 0x00EE#16 = .error (.noPattern 0x00EE#16) := by decide

/-! ### Well-formedness: each check refuses its ill-formed term (R65) -/

theorem test_wellFormed_jp : (AsmLine.jp 0x1000).wellFormed = false := by decide
theorem test_wellFormed_ld_x : (AsmLine.ld 16 0).wellFormed = false := by decide
theorem test_wellFormed_ld_kk : (AsmLine.ld 0 0x100).wellFormed = false := by decide
theorem test_wellFormed_add_x : (AsmLine.add 16 0).wellFormed = false := by decide
theorem test_wellFormed_add_kk : (AsmLine.add 0 0x100).wellFormed = false := by decide
theorem test_wellFormed_ldi : (AsmLine.ldi 0x1000).wellFormed = false := by decide
theorem test_wellFormed_drw_x : (AsmLine.drw 16 0 0).wellFormed = false := by decide
theorem test_wellFormed_drw_y : (AsmLine.drw 0 16 0).wellFormed = false := by decide
theorem test_wellFormed_drw_n : (AsmLine.drw 0 0 16).wellFormed = false := by decide
theorem test_wellFormed_bytes : (AsmLine.bytes [0xFF, 0x100]).wellFormed = false := by decide

/-- The image of program P2 (95_test_vectors.md), assembled from its lines. -/
theorem test_assemble_p2 :
    assemble [.ldi 0x20C, .ld 0 0x08, .ld 1 0x04, .drw 0 1 3, .jp 0x208, .bytes [0, 0], .bytes [0xF0, 0x90, 0xF0]] =
      some [0xA2, 0x0C, 0x60, 0x08, 0x61, 0x04, 0xD0, 0x13, 0x12, 0x08, 0x00, 0x00, 0xF0, 0x90, 0xF0] := by decide

/-! ### Single steps (95_test_vectors.md, L1 and L2) -/

/-- A loaded loadedCore with word `w` at its `pc`. -/
def loadedCore (w : Nat) : State := State.reset.withFetchWord 16 w

/-- A check of the state an outcome answers; false where it answers none. -/
def after (o : Host.Outcome State Fault Refusal) (check : State → Bool) : Bool :=
  match o with
  | .next t => check t
  | .fault _ => false
  | .refused _ => false

/-- The step under Retain with no key held. -/
def run (s : State) : Host.Outcome State Fault Refusal := stepUnder .retain Keys.noneHeld s

-- E2
theorem test_nop_advances : after (step (loadedCore 0x0000)) (fun t => t.pc == 0x202#16 && t.reply == some (.ok none)) = true := by
  decide
-- S3: NOP at an odd pc wraps to 0x001
theorem test_nop_wraps : after (step { loadedCore 0 with pc := 0xFFF#16 }) (fun t => t.pc == 0x001#16) = true := by decide
-- S4: an odd target
theorem test_jp_odd : after (step (loadedCore 0x1203)) (fun t => t.pc == 0x203#16) = true := by decide
-- S2: the low byte of a fetch at 0xFFF comes from 0x000
theorem test_jp_fetched_at_the_edge :
    after (step ({ State.reset with pc := 0xFFF#16 }.withFetchWord 16 0x1234))
      (fun t => t.pc == 0x234#16 && t.mem.read 0xFFF == 0x12#8 && t.mem.read 0x000 == 0x34#8) = true := by decide
-- A2
theorem test_ld_vf : after (step (loadedCore 0x6FFF)) (fun t => t.readV 15 == 0xFF#8 && t.readV 0 == 0x00#8) = true := by decide
-- A6
theorem test_add_vf_wraps : after (step ((loadedCore 0x7F05).writeV 15 0xFE#8)) (fun t => t.readV 15 == 0x03#8) = true := by decide
-- A7: no carry into VF
theorem test_add_no_flag :
    after (step (((loadedCore 0x73F5).writeV 3 0x10#8).writeV 15 0x01#8))
      (fun t => t.readV 3 == 0x05#8 && t.readV 15 == 0x01#8) = true := by decide
-- A9
theorem test_ldi : after (step ((loadedCore 0xAFFF).setI 0x456#16)) (fun t => t.i == 0xFFF#16) = true := by decide
-- V15, E3
theorem test_cls :
    after (step { loadedCore 0x00E0 with fb := FrameBuffer.blank.setPixel 31 63 true })
      (fun t => !t.fb.pixel 31 63 && t.reply == some (.ok (some t.fb))) = true := by decide

/-- The core of the display vectors: `w` at 0x200, I = 0x300 and one sprite byte there. -/
def drawCore (w : Nat) (sprite : Byte) : State :=
  { loadedCore w with i := 0x300#16, mem := (loadedCore w).mem.write 0x300 sprite }

-- V3: partial collision
theorem test_drw_collision :
    after (step { drawCore 0xD011 0xF0#8 with fb := (FrameBuffer.blank.setPixel 0 2 true).setPixel 0 10 true })
      (fun t => t.fb.pixel 0 1 && !t.fb.pixel 0 2 && t.fb.pixel 0 3 && !t.fb.pixel 0 4 && t.fb.pixel 0 10 &&
        t.readV 15 == 1#8) = true := by decide
-- V9 (x = F) with the column near the right edge: VF is read before it is cleared, and columns 64 and up are clipped
theorem test_drw_vf_column_clipped :
    after (step ((drawCore 0xDF01 0xFF#8).writeV 15 62#8))
      (fun t => t.fb.pixel 0 62 && t.fb.pixel 0 63 && !t.fb.pixel 0 0 && !t.fb.pixel 1 0 && t.readV 15 == 0#8) = true := by
  decide

/-! ### DecodeError, load and the other host operations (95_test_vectors.md S6, S7, T1 to T6) -/

/-- A loaded core at 0xFFE with the word 0xFFFF there. -/
def failing : State := { State.reset with pc := 0xFFE#16 }.withFetchWord 16 0xFFFF

-- S7 under both values of DECODE_ERROR_PC
theorem test_decode_error_retain :
    after (stepUnder .retain Keys.noneHeld failing) (fun t => t.pc == 0xFFE#16 &&
      t.reply == some (.err ⟨0xFFFF#16, 0xFFE#16⟩) && t.decodeErrors == [⟨0xFFFF#16, 0xFFE#16⟩]) = true := by decide
theorem test_decode_error_advance :
    after (stepUnder .advance Keys.noneHeld failing) (fun t => t.pc == 0x000#16 &&
      t.reply == some (.err ⟨0xFFFF#16, 0xFFE#16⟩) && t.faulted) = true := by decide

/-- Parameters of a core as the document's examples give them. -/
def example700 : Parameters := ⟨.retain, 700, 60⟩

theorem example700_positive : 0 < example700.stepFrequencyHz := by norm_num [example700]

-- T4
theorem test_clock_period : clockPeriod example700 = 1 / 700 := rfl
-- T6
theorem test_timer_tick_at_zero : (timerTick State.reset).dt = 0#8 ∧ (timerTick State.reset).st = 0#8 := by decide
-- The image is placed at 0x200 and everything else is 0 (T1, E8), whatever memory held.
theorem test_load :
    ((loadPort [0x12, 0x34] { State.reset with mem := [(0x10, 7#8)] }).2.mem = [(0x200, 0x12#8), (0x201, 0x34#8)]) := by
  decide

/-! ### Witnesses: the hypotheses of the statements are met -/

/-- A boot with an image that fits answers a launch state. -/
theorem boot_fits (image : List Byte) (h : image.length ≤ 3584) : ∃ s, boot example700 image = .next s ∧ s.phase = .loaded := by
  rcases loadPort_cases image State.reset with ⟨-, e⟩ | ⟨h', -⟩
  · exact ⟨_, by simp [boot, construct, example700_positive, e]; rfl, rfl⟩
  · omega

/-- The decoder's clauses, each at the first and the last word of its range: the opcode nibbles. -/
theorem witness_DecoderReadsTheSevenPatterns :
    (0x1000#16).toNat / 4096 = 0x1 ∧ (0x1FFF#16).toNat / 4096 = 0x1 ∧ (0x6000#16).toNat / 4096 = 0x6 ∧
    (0x6FFF#16).toNat / 4096 = 0x6 ∧ (0x7000#16).toNat / 4096 = 0x7 ∧ (0x7FFF#16).toNat / 4096 = 0x7 ∧
    (0xA000#16).toNat / 4096 = 0xA ∧ (0xAFFF#16).toNat / 4096 = 0xA ∧ (0xD000#16).toNat / 4096 = 0xD ∧
    (0xDFFF#16).toNat / 4096 = 0xD := by decide

/-- The decoder's last clause at the edges of R62's ranges. -/
theorem witness_DecoderRefusesTheRest : ([0x0001#16, 0x00DF#16, 0x00E1#16, 0x0FFF#16, 0x2000#16, 0x5FFF#16, 0x8000#16,
    0x9FFF#16, 0xB000#16, 0xCFFF#16, 0xE000#16, 0xFFFF#16].all fun w =>
      decide (w.toNat ≠ 0x0000 ∧ w.toNat ≠ 0x00E0 ∧ w.toNat / 4096 ∉ [0x1, 0x6, 0x7, 0xA, 0xD] ∧
        decode w = .error (.noPattern w))) = true := by decide

theorem witness_EncodeOfDecodeIsTheWord : decode 0xD12F#16 = .ok (.drw 1 2 15) ∧ encode (.drw 1 2 15) = 0xD12F#16 := by decide

theorem witness_PatternsArePairwiseDisjoint :
    Instr.row (.drw 0 0 0) ∈ opcodeTable ∧ (Instr.row (.drw 0 0 0)).accepts 0xDFFF#16 = true := by decide

theorem witness_AssemblerRefusesOutOfRangeOperands :
    (AsmLine.drw 15 15 15).instr? = some (.drw 15 15 15) ∧ (AsmLine.drw 15 15 16).instr? = none := by decide

/-- Each range of R65 at its last value and one past it: the bytes written out from the encodings, and the refusal. -/
theorem test_assemble_at_the_edges :
    (AsmLine.jp 0xFFF).assemble = some [0x1F, 0xFF] ∧ (AsmLine.jp 0x1000).assemble = none ∧
    (AsmLine.ld 15 0xFF).assemble = some [0x6F, 0xFF] ∧ (AsmLine.ld 16 0).assemble = none ∧
    (AsmLine.add 15 0xFF).assemble = some [0x7F, 0xFF] ∧ (AsmLine.add 0 0x100).assemble = none ∧
    (AsmLine.ldi 0xFFF).assemble = some [0xAF, 0xFF] ∧ (AsmLine.ldi 0x1000).assemble = none ∧
    (AsmLine.drw 15 15 15).assemble = some [0xDF, 0xFF] ∧ (AsmLine.drw 0 16 0).assemble = none ∧
    (AsmLine.bytes [0, 0xFF]).assemble = some [0, 0xFF] ∧ (AsmLine.bytes [0x100]).assemble = none := by decide

/-- At the last address, where the second byte wraps, the hypotheses on the two bytes and their decoding hold. -/
theorem witness_StepRunsTheDecodedInstruction :
    let s : State := { State.reset with pc := 0xFFF#16 }.withFetchWord 16 0x6342
    s.phase = .loaded ∧ s.mem.read s.pc.toNat = 0x63#8 ∧ s.mem.read ((s.pc.toNat + 1) % 4096) = 0x42#8 ∧
      decodeBytes 0x63#8 0x42#8 = .ok (.ld 3 0x42#8) := by decide

/-- For `LoadedCoreNeverHalts` (a loaded core) and, with both bytes 0 at `pc`, for `NopChangesNothingButPc`. -/
theorem witness_NopChangesNothingButPc :
    (loadedCore 0).phase = .loaded ∧ (loadedCore 0).mem.read (loadedCore 0).pc.toNat = 0#8 ∧
      (loadedCore 0).mem.read (((loadedCore 0).pc.toNat + 1) % 4096) = 0#8 := by decide

theorem witness_ZeroMemoryRunsNopsAndWraps :
    (loadedCore 0).phase = .loaded ∧ (loadedCore 0).pc.toNat < 4096 ∧ ∀ a, (loadedCore 0).mem.read a = 0#8 :=
  ⟨rfl, by decide, fun _ => rfl⟩

/-- For `DecodeErrorIsPrecise` and `StepAfterDecodeErrorGoesOn`. -/
theorem witness_DecodeErrorIsPrecise :
    failing.phase = .loaded ∧ decode (fetchWord failing) = .error (.noPattern 0xFFFF#16) := by decide

theorem witness_RecordedErrorsAreNeverCleared :
    ∃ t, stepUnder .advance Keys.noneHeld { loadedCore 0 with decodeErrors := [⟨0xFFFF#16, 0x1FE#16⟩] } = .next t ∧
      ({ loadedCore 0 with decodeErrors := [⟨0xFFFF#16, 0x1FE#16⟩] } : State).faulted = true := ⟨_, rfl, rfl⟩

theorem witness_JpJumpsAbsolute :
    (loadedCore 0x1FFF).phase = .loaded ∧ (fetchWord (loadedCore 0x1FFF)).toNat = 0x1000 + (0xFFF#12).toNat ∧
      ({ State.reset with pc := 0xFFF#16 } : State).pc.toNat = 0xFFF := by decide

/-- Two registers with other values and the same start position, one of them VF (R86: 0x45 starts at column 5, 0x21 at row 1). -/
theorem witness_DrwStartsAtTheRegistersModuloTheDisplay :
    let s := ((((loadedCore 0).writeV 0 0x45#8).writeV 15 0x05#8).writeV 1 0x21#8).writeV 2 0x01#8
    (s.readV 0).toNat % 64 = (s.readV 15).toNat % 64 ∧ (s.readV 1).toNat % 32 = (s.readV 2).toNat % 32 := by decide

/-- The start pixel at the last row and the last column (R86: 0xFF starts at column 63 and row 31), with a first sprite bit
set, and a pixel to its left. -/
theorem witness_DrwStartsAtTheLastRowAndColumn :
    let s := ((drawCore 0xD011 0x80#8).writeV 0 0xFF#8).writeV 1 0xFF#8
    (31 : Fin 32).val = (s.readV 1).toNat % 32 ∧ (63 : Fin 64).val = (s.readV 0).toNat % 64 ∧ 0 < (1 : Height).val ∧
      (s.mem.read (s.i.toNat % 4096)).getLsbD 7 = true ∧ (62 : Fin 64).val < (s.readV 0).toNat % 64 := by decide

/-- For `DrwFlipsExactlyTheVisibleSprite` and the first clause of `ClippedBitsHaveNoEffect`, at column 63: bit 3 of the sprite is
column 60 + 3, a pixel of S, which is on in one display and off in the other; column 0 is outside S. -/
theorem witness_DrwFlipsExactlyTheVisibleSprite :
    let s := (drawCore 0xD011 0xF5#8).writeV 0 60#8
    InSprite s 0 1 1 0 63 ∧ ¬ InSprite s 0 1 1 0 0 ∧ (s.fb.setPixel 0 63 true).pixel 0 63 = true ∧
      s.fb.pixel 0 63 = false := by
  refine ⟨⟨0, 3, by decide, by decide, by decide, by decide, by decide⟩, ?_, by decide, by decide⟩
  rintro ⟨r, c, -, -, -, h, -⟩
  have : ((((drawCore 0xD011 0xF5#8).writeV 0 60#8).readV 0).toNat % 64) = 60 := by decide
  rw [this, show (0 : Fin 64).val = 0 from rfl] at h
  omega

/-- A memory that differs only in bits clipped at column 63: the start is column 60 (E7), so bits 3 to 0 fall off the edge. -/
theorem witness_ClippedBitsHaveNoEffect :
    let s := (drawCore 0xD011 0xF5#8).writeV 0 60#8
    let m : Memory := s.mem.write 0x300 0xFA#8
    m ≠ s.mem ∧ ∀ r, r < (1 : Height).val → ∀ c, c < 8 → (s.readV 1).toNat % 32 + r ≤ 31 →
      (s.readV 0).toNat % 64 + c ≤ 63 →
      (m.read ((s.i.toNat + r) % 4096)).getLsbD (7 - c) = (s.mem.read ((s.i.toNat + r) % 4096)).getLsbD (7 - c) := by
  decide

/-- The same at row 31, the last one: the start is row 31, so the second sprite row falls off the edge and a memory that differs
in its byte alone meets the hypothesis; the first row's pixel is in S, at row 31. -/
theorem witness_ClippedBitsHaveNoEffect_row31 :
    let s := (drawCore 0xD012 0x80#8).writeV 1 31#8
    let m : Memory := s.mem.write 0x301 0xFF#8
    InSprite s 0 1 2 31 0 ∧ m ≠ s.mem ∧ ∀ r, r < (2 : Height).val → ∀ c, c < 8 → (s.readV 1).toNat % 32 + r ≤ 31 →
      (s.readV 0).toNat % 64 + c ≤ 63 →
      (m.read ((s.i.toNat + r) % 4096)).getLsbD (7 - c) = (s.mem.read ((s.i.toNat + r) % 4096)).getLsbD (7 - c) :=
  ⟨⟨0, 0, by decide, by decide, by decide, by decide, by decide⟩, by decide, by decide⟩

/-- A memory that differs outside the source bytes: the second source row of I = 0xFFF is 0x000 (R92), and 0x001 differs. -/
theorem witness_DrwReadsOnlyItsSourceBytes :
    let s := (loadedCore 0).setI 0xFFF#16
    let m : Memory := s.mem.write 0x001 0xAA#8
    m ≠ s.mem ∧ ∀ r, r < (2 : Height).val →
      m.read ((s.i.toNat + r) % 4096) = s.mem.read ((s.i.toNat + r) % 4096) := by decide

theorem witness_DoubleDrawRestoresTheDisplay : (0 : VReg) ≠ 15 ∧ (1 : VReg) ≠ 15 := by decide

/-- For `NoInstructionWritesMemory` and `StackAndTimersNeverInfluenceAStep`: a step that answers a next state. -/
theorem witness_NoInstructionWritesMemory : ∃ t, stepUnder .retain Keys.noneHeld (loadedCore 0xD015) = .next t := ⟨_, rfl⟩

/-- A state other than reset that meets the invariant, and a step from it. -/
theorem witness_EveryStepKeepsTheInvariant :
    (loadedCore 0xA123).Inv ∧ (∃ t, stepUnder .advance Keys.noneHeld (loadedCore 0xA123) = .next t) ∧
      ∃ t, step (loadedCore 0xA123) = .next t :=
  ⟨⟨by decide, by decide, by decide⟩, ⟨_, rfl⟩, ⟨_, rfl⟩⟩

theorem witness_LoadKeepsTheInvariant : State.reset.Inv := ⟨rfl, by decide, by decide⟩

/-- For every statement over reachable states (`LdiLoadsTheIndexRegister`, `TimerTicksAreNoOpsInARun` among them): a launch state,
a state one step on and a state one tick on are reachable. -/
theorem witness_ReachableStatesStayInRange :
    ∃ s t, Reachable example700 [] s ∧ Reachable example700 [] t ∧ Reachable example700 [] (timerTick t) ∧
      stepUnder .retain Keys.noneHeld s = .next t := by
  obtain ⟨s, hs, hp⟩ := boot_fits [] (by decide)
  have hd : decode (fetchWord s) = .ok .nop := by
    obtain ⟨-, -, rfl⟩ := boot_cases hs
    decide
  have ht : stepUnder .retain Keys.noneHeld s = .next (returnNone (advancePc s)) := by
    rw [stepUnder_loaded hp, runOne, hd]; rfl
  have h₁ := Reachable.step Keys.noneHeld (Reachable.launch hs) ht
  exact ⟨s, _, Reachable.launch hs, h₁, Reachable.tick h₁, ht⟩

/-- The state a load of `12 00` makes has the invariant of a run, and a step from it answers a next state, under both forms of the
step. -/
theorem witness_StepsAndTicksKeepTheRunInvariant :
    let s := (loadPort [0x12, 0x00] State.reset).2
    s.RunInv [0x12, 0x00] ∧ (∃ t, stepUnder .advance Keys.noneHeld s = .next t) ∧ ∃ t, step s = .next t :=
  ⟨⟨⟨by decide, by decide, by decide⟩, ⟨rfl, rfl, rfl, rfl⟩, rfl,
    fun _ ha => Memory.read_ofImage (image := [0x12, 0x00]) (by decide) ha⟩, ⟨_, rfl⟩, ⟨_, rfl⟩⟩

/-- A run that meets a DecodeError: the word 0xFFFF at 0x200 is recorded; and the launch state before it is safe. -/
theorem witness_RecordedErrorsNameTheFailingWord :
    ∃ s t e, Reachable example700 [0xFF, 0xFF] t ∧ t.reply = some (.err e) ∧ e ∈ t.decodeErrors ∧
      SafeReachable example700 [0xFF, 0xFF] s := by
  obtain ⟨s, hs, hp⟩ := boot_fits [0xFF, 0xFF] (by decide)
  have hd : decode (fetchWord s) = .error (.noPattern 0xFFFF#16) := by
    obtain ⟨-, -, rfl⟩ := boot_cases hs
    decide
  have hf : s.faulted = false := by
    obtain ⟨-, -, rfl⟩ := boot_cases hs
    rfl
  have ht : stepUnder .retain Keys.noneHeld s = .next (takeDecodeError .retain (fetchWord s) s) := by
    rw [stepUnder_loaded hp, runOne, hd]
  exact ⟨s, _, _, Reachable.step Keys.noneHeld (Reachable.launch hs) ht, rfl, by simp, Reachable.launch hs, hf⟩

/-- For the statements about construction: a positive frequency, and one that is not. -/
theorem witness_ConstructionStartsZeroed :
    0 < example700.stepFrequencyHz ∧ ¬ 0 < (⟨.retain, 0, 60⟩ : Parameters).stepFrequencyHz :=
  ⟨example700_positive, by norm_num⟩

/-- T1, T2: the empty image and the longest image that fits. -/
theorem witness_LoadPlacesTheImageAndZeroFills :
    ([] : List Byte).length ≤ 3584 ∧ (List.replicate 3584 (0xFF#8 : Byte)).length ≤ 3584 :=
  ⟨Nat.zero_le _, List.length_replicate.le⟩

/-- T3: for `TooLongAnImageIsALoadError` and `FailedLoadWritesNothing`. -/
theorem witness_TooLongAnImageIsALoadError :
    3584 < (List.replicate 3585 (0xFF#8 : Byte)).length ∧ 0 < example700.stepFrequencyHz ∧
      State.reset.phase = .constructed := ⟨by rw [List.length_replicate]; decide, example700_positive, rfl⟩

theorem witness_StepBeforeLoadAndSecondLoadAreRefused :
    State.reset.phase = .constructed ∧ ∃ s, Reachable example700 [0x12, 0x00] s := by
  obtain ⟨s, hs, -⟩ := boot_fits [0x12, 0x00] (by decide)
  exact ⟨rfl, s, Reachable.launch hs⟩

/-- The program P6 (an odd jump) and an image whose rest is as long as it can be. -/
theorem witness_FirstStepRunsTheImage :
    0 < example700.stepFrequencyHz ∧ (List.replicate 3582 (0#8 : Byte)).length ≤ 3582 ∧
      decodeBytes 0x12#8 0x03#8 = .ok (.jp 0x203#12) := ⟨example700_positive, List.length_replicate.le, by decide⟩

/-- Timers at 1, at 255 and at 0. -/
theorem witness_TimerTickCountsDown :
    0 < (1#8 : Byte).toNat ∧ 0 < (255#8 : Byte).toNat ∧ State.reset.dt = 0#8 ∧ State.reset.st = 0#8 := by decide

theorem witness_QueriesReportConstants : 0 < example700.stepFrequencyHz := example700_positive

end Sys2Proof.Tests
end

namespace Sys2Proof

/-! ### The operand fields of a word, written as numbers (R53 to R55) -/

theorem fieldX_eq_ofNat (w : Word) : fieldX w = Fin.ofNat 16 (w.toNat / 256 % 16) :=
  Fin.ext (by rw [fieldX_val, Fin.val_ofNat, Nat.mod_mod])

theorem fieldY_eq_ofNat (w : Word) : fieldY w = Fin.ofNat 16 (w.toNat / 16 % 16) :=
  Fin.ext (by rw [fieldY_val, Fin.val_ofNat, Nat.mod_mod])

theorem fieldN_eq_ofNat (w : Word) : fieldN w = Fin.ofNat 16 (w.toNat % 16) :=
  Fin.ext (by rw [fieldN_val, Fin.val_ofNat, Nat.mod_mod])

theorem fieldKK_eq_ofNat (w : Word) : fieldKK w = BitVec.ofNat 8 (w.toNat % 256) :=
  BitVec.eq_of_toNat_eq (by rw [fieldKK_toNat, BitVec.toNat_ofNat, Nat.mod_mod])

theorem fieldABC_eq_ofNat (w : Word) : fieldABC w = BitVec.ofNat 12 (w.toNat % 4096) :=
  BitVec.eq_of_toNat_eq (by rw [fieldABC_toNat, BitVec.toNat_ofNat, Nat.mod_mod])

/-! ### The decoder on the number of a word (R58) -/

/-- The tests of R58 as tests on the number of the word. The lemmas below say what each branch answers. -/
theorem decode_eq_ite_toNat (w : Word) : decode w =
    if w.toNat = 0x0000 then .ok .nop
    else if w.toNat = 0x00E0 then .ok .cls
    else if w.toNat / 4096 = 0x1 then .ok (.jp (fieldABC w))
    else if w.toNat / 4096 = 0x6 then .ok (.ld (fieldX w) (fieldKK w))
    else if w.toNat / 4096 = 0x7 then .ok (.add (fieldX w) (fieldKK w))
    else if w.toNat / 4096 = 0xA then .ok (.ldi (fieldABC w))
    else if w.toNat / 4096 = 0xD then .ok (.drw (fieldX w) (fieldY w) (fieldN w))
    else .error (.noPattern w) := by
  simp only [decode, BitVec.toNat_eq, nibble1_toNat, BitVec.toNat_ofNat, Nat.reducePow, Nat.reduceMod]

theorem decode_eq_nop_iff (w : Word) : decode w = .ok .nop ↔ w.toNat = 0x0000 := by
  rw [decode_eq_ite_toNat]
  constructor
  · intro h
    by_contra hw
    rw [if_neg hw] at h
    split_ifs at h <;> cases h
  · exact fun hw => if_pos hw

theorem decode_eq_cls_iff (w : Word) : decode w = .ok .cls ↔ w.toNat = 0x00E0 := by
  rw [decode_eq_ite_toNat]
  constructor
  · intro h
    by_contra hw
    rw [if_neg hw] at h
    split_ifs at h <;> cases h
  · intro hw
    rw [if_neg (by omega), if_pos hw]

/-! A word whose first nibble is not 0 is neither NOP's nor CLS's, so its first nibble alone chooses the instruction. -/

theorem decode_of_nibble_one {w : Word} (h : w.toNat / 4096 = 0x1) : decode w = .ok (.jp (fieldABC w)) := by
  rw [decode_eq_ite_toNat, if_neg (by omega), if_neg (by omega)]
  simp [h]

theorem decode_of_nibble_six {w : Word} (h : w.toNat / 4096 = 0x6) :
    decode w = .ok (.ld (fieldX w) (fieldKK w)) := by
  rw [decode_eq_ite_toNat, if_neg (by omega), if_neg (by omega)]
  simp [h]

theorem decode_of_nibble_seven {w : Word} (h : w.toNat / 4096 = 0x7) :
    decode w = .ok (.add (fieldX w) (fieldKK w)) := by
  rw [decode_eq_ite_toNat, if_neg (by omega), if_neg (by omega)]
  simp [h]

theorem decode_of_nibble_ten {w : Word} (h : w.toNat / 4096 = 0xA) : decode w = .ok (.ldi (fieldABC w)) := by
  rw [decode_eq_ite_toNat, if_neg (by omega), if_neg (by omega)]
  simp [h]

theorem decode_of_nibble_thirteen {w : Word} (h : w.toNat / 4096 = 0xD) :
    decode w = .ok (.drw (fieldX w) (fieldY w) (fieldN w)) := by
  rw [decode_eq_ite_toNat, if_neg (by omega), if_neg (by omega)]
  simp [h]

/-- Every other word is refused (R58's last line, R62). -/
theorem decode_of_no_pattern {w : Word} (hnop : w.toNat ≠ 0x0000) (hcls : w.toNat ≠ 0x00E0)
    (h : w.toNat / 4096 ∉ [0x1, 0x6, 0x7, 0xA, 0xD]) : decode w = .error (.noPattern w) := by
  simp only [List.mem_cons, List.not_mem_nil, or_false, not_or] at h
  obtain ⟨hjp, hld, hadd, hldi, hdrw⟩ := h
  rw [decode_eq_ite_toNat, if_neg hnop, if_neg hcls, if_neg hjp, if_neg hld, if_neg hadd, if_neg hldi, if_neg hdrw]

/-- Settles O2: one lemma per branch of the decoder, and each operand field rewritten as a number of the word. -/
theorem decoderReadsTheSevenPatterns : Obligations.DecoderReadsTheSevenPatterns := by
  intro w
  rw [← fieldX_eq_ofNat, ← fieldY_eq_ofNat, ← fieldN_eq_ofNat, ← fieldKK_eq_ofNat, ← fieldABC_eq_ofNat]
  exact ⟨decode_eq_nop_iff w, decode_eq_cls_iff w, decode_of_nibble_one, decode_of_nibble_six, decode_of_nibble_seven,
    decode_of_nibble_ten, decode_of_nibble_thirteen, decode_of_no_pattern⟩

end Sys2Proof

namespace Sys2Proof.Machine

/-! ### Steps and runs of a loaded core (R68, R77) -/

/-- A loaded core's step answers a next state, whether or not the fetched word decodes, and the core stays loaded. -/
theorem stepUnder_loaded_completes (p : DecodeErrorPc) (keys : Keys) {s : State} (h : s.phase = .loaded) :
    ∃ t, stepUnder p keys s = .next t ∧ t.phase = .loaded := by
  cases hd : decode (fetchWord s) with
  | ok i =>
    obtain ⟨t, ht⟩ := exec_completes i (advancePc s)
    obtain ⟨-, -, -, -, -, hphase, -⟩ := exec_keeps ht
    exact ⟨t, (stepUnder_of_decode_ok h hd).trans ht, by rw [hphase, advancePc_phase, h]⟩
  | error e =>
    exact ⟨_, stepUnder_of_decode_error h hd, by rw [takeDecodeError_phase, h]⟩

@[simp] theorem run_zero (s : State) : core.run 0 s = .next s := rfl

/-- A run whose first step answers `t` goes on from `t`. -/
theorem run_succ_of_step {s t : State} (k : Nat) (h : step s = .next t) : core.run (k + 1) s = core.run k t := by
  simp only [Host.Core.run, show core.step s = .next t from h]

/-- What every step both needs and keeps lets a run of any length complete, and holds where the run ends. -/
theorem run_completes_of_step_completes {I : State → Prop} (hstep : ∀ s, I s → ∃ t, step s = .next t ∧ I t) (k : Nat)
    {s : State} (h : I s) : ∃ t : State, core.run k s = .next t ∧ I t := by
  induction k generalizing s with
  | zero => exact ⟨s, run_zero s, h⟩
  | succ k ih =>
    obtain ⟨u, hu, hI⟩ := hstep s h
    rw [run_succ_of_step k hu]
    exact ih hI

/-- Settles O10: being loaded is what every step both needs and keeps. -/
theorem loadedCoreNeverHalts : Obligations.LoadedCoreNeverHalts :=
  ⟨fun p keys _ h => stepUnder_loaded_completes p keys h,
    fun k _ h => run_completes_of_step_completes (I := fun s => s.phase = .loaded)
      (fun _ hs => stepUnder_loaded_completes _ _ hs) k h⟩

/-! ### The bytes at `pc` and the step (R37, R68 to R70) -/

/-- The fetched word is the word of the two bytes at `pc`, the second address taken modulo 4096 (R37, D2). -/
theorem fetchWord_of_bytes {s : State} {hi lo : Byte} (hhi : s.mem.read s.pc.toNat = hi)
    (hlo : s.mem.read ((s.pc.toNat + 1) % 4096) = lo) : fetchWord s = wordOfBytes hi lo := by
  rw [Memory.read_mod] at hlo
  rw [fetchWord, hhi, hlo]

/-- The fetch's advance writes `pc` alone (R70). -/
theorem advancePc_eq (s : State) : advancePc s = { s with pc := BitVec.ofNat 16 ((s.pc.toNat + 2) % 4096) } := rfl

/-- The step of a loaded core, from the two bytes at `pc`. -/
theorem stepUnder_of_decodeBytes_ok (p : DecodeErrorPc) (keys : Keys) {s : State} {hi lo : Byte} {i : Instr}
    (h : s.phase = .loaded) (hhi : s.mem.read s.pc.toNat = hi) (hlo : s.mem.read ((s.pc.toNat + 1) % 4096) = lo)
    (hd : decodeBytes hi lo = .ok i) : stepUnder p keys s = exec i (advancePc s) := by
  have hword : decode (fetchWord s) = .ok i := by rw [fetchWord_of_bytes hhi hlo]; exact hd
  exact stepUnder_of_decode_ok h hword

/-- Settles O9: `step` is `stepUnder` at the core's own parameter, so one lemma serves both. -/
theorem stepRunsTheDecodedInstruction : Obligations.StepRunsTheDecodedInstruction := by
  refine ⟨fun p keys s hi lo i h hhi hlo hd => ?_, by decide, by decide, fun abc s => ?_⟩
  · rw [← advancePc_eq]
    exact ⟨stepUnder_of_decodeBytes_ok p keys h hhi hlo hd, stepUnder_of_decodeBytes_ok _ _ h hhi hlo hd⟩
  · exact ⟨_, exec_jp abc s, by rw [returnNone_pc, setPc_pc, zextAddr_toNat]⟩

/-- Settles O11: no case of the step, refused or run, mentions the keys. -/
theorem keysNeverMatter : Obligations.KeysNeverMatter := by
  intro p keys keys' s
  cases h : s.phase with
  | constructed => rw [stepUnder, stepUnder, h]
  | loaded => rw [stepUnder_loaded h, stepUnder_loaded h]

/-! ### What an instruction returns (R73) -/

/-- The returned display is the one the state holds after the return (R74). -/
theorem returnDisplay_reply_eq_fb (s : State) : (returnDisplay s).reply = some (.ok (some (returnDisplay s).fb)) := by
  rw [returnDisplay_reply, returnDisplay_fb]

/-- Settles O12: CLS and DRW end in `returnDisplay`, the other five in `returnNone`. -/
theorem onlyClsAndDrwReturnTheDisplay : Obligations.OnlyClsAndDrwReturnTheDisplay :=
  ⟨fun s => ⟨_, exec_cls s, returnDisplay_reply_eq_fb _⟩,
    fun x y n s => ⟨_, exec_drw x y n s, returnDisplay_reply_eq_fb _⟩,
    fun s => ⟨_, exec_nop s, returnNone_reply _⟩,
    fun abc s => ⟨_, exec_jp abc s, returnNone_reply _⟩,
    fun x kk s => ⟨_, exec_ld x kk s, returnNone_reply _⟩,
    fun x kk s => ⟨_, exec_add x kk s, returnNone_reply _⟩,
    fun abc s => ⟨_, exec_ldi abc s, returnNone_reply _⟩⟩

end Sys2Proof.Machine

namespace Sys2Proof.Machine

/-! ### NOP (R79) -/

/-- `return None` writes the reply alone (R73). -/
theorem returnNone_eq (s : State) : returnNone s = { s with reply := some (.ok none) } := rfl

/-- Two zero bytes are NOP's word (R79). -/
theorem decodeBytes_zero : decodeBytes 0#8 0#8 = .ok .nop :=
  (decode_eq_nop_iff _).mpr (wordOfBytes_toNat 0#8 0#8)

/-- The step of a loaded core that fetches two zero bytes advances `pc` and returns None. -/
theorem stepUnder_of_zero_bytes (p : DecodeErrorPc) (keys : Keys) {s : State} (h : s.phase = .loaded)
    (hhi : s.mem.read s.pc.toNat = 0#8) (hlo : s.mem.read ((s.pc.toNat + 1) % 4096) = 0#8) :
    stepUnder p keys s = .next (returnNone (advancePc s)) := by
  rw [stepUnder_of_decodeBytes_ok p keys h hhi hlo decodeBytes_zero, exec_nop]

/-- Settles O17: NOP itself only returns, so its step leaves no write but the fetch's advance of `pc` and the reply. -/
theorem nopChangesNothingButPc : Obligations.NopChangesNothingButPc := by
  refine ⟨(decode_eq_nop_iff _).mpr rfl, fun s => ?_, fun p keys s h hhi hlo => ?_⟩
  · rw [exec_nop, returnNone_eq]
  · rw [stepUnder_of_zero_bytes p keys h hhi hlo, returnNone_eq, advancePc_eq]

/-! ### JP (R80) -/

/-- A word numbered as JP's is JP of its low twelve bits. -/
theorem decode_of_toNat_eq_jp {w : Word} {abc : Addr12} (h : w.toNat = 0x1000 + abc.toNat) :
    decode w = .ok (.jp abc) := by
  have habc : abc.toNat < 4096 := abc.isLt
  have hfield : fieldABC w = abc := BitVec.eq_of_toNat_eq (by rw [fieldABC_toNat]; omega)
  rw [decode_of_nibble_one (by omega), hfield]

/-- JP overwrites `pc`, so it undoes any earlier write of `pc`, the fetch's advance among them (R19). -/
theorem exec_jp_advancePc (abc : Addr12) (s : State) : exec (.jp abc) (advancePc s) = exec (.jp abc) s := rfl

/-- Everything JP does: it completes, `pc` is the address, and only `pc` and the reply are written. -/
theorem exec_jp_spec (abc : Addr12) (s : State) :
    ∃ t, exec (.jp abc) s = .next t ∧ t.pc.toNat = abc.toNat ∧ t = { s with pc := t.pc, reply := some (.ok none) } :=
  ⟨_, exec_jp abc s, by rw [returnNone_pc, setPc_pc, zextAddr_toNat], rfl⟩

/-- The number of the fetched word, its low byte's address taken modulo 4096 (R37, D2). -/
theorem fetchWord_toNat (s : State) : (fetchWord s).toNat =
    256 * (s.mem.read s.pc.toNat).toNat + (s.mem.read ((s.pc.toNat + 1) % 4096)).toNat := by
  rw [fetchWord_of_bytes rfl rfl, wordOfBytes_toNat]

/-- Settles O18: the step that fetches JP is JP itself, since JP overwrites the advanced `pc`; the fetch at 0xFFF is the wrapped
case of `fetchWord_toNat`. -/
theorem jpJumpsAbsolute : Obligations.JpJumpsAbsolute := by
  refine ⟨fun abc => decode_of_toNat_eq_jp ?_, exec_jp_spec, fun p keys abc s h hw => ?_, fun s hpc => ?_⟩
  · rw [BitVec.toNat_ofNat, Nat.mod_eq_of_lt (by have := abc.isLt; omega)]
  · rw [stepUnder_of_decode_ok h (decode_of_toNat_eq_jp hw), exec_jp_advancePc]
    exact exec_jp_spec abc s
  · rw [fetchWord_toNat, hpc]

end Sys2Proof.Machine

namespace Sys2Proof.Machine

/-! ### The fields of a word numbered as in formats XK and A (R52) -/

theorem fieldX_of_toNat_eq {w : Word} {op : Nat} {x : VReg} {kk : Byte}
    (h : w.toNat = 4096 * op + 256 * x.val + kk.toNat) : fieldX w = x :=
  Fin.ext (by rw [fieldX_val]; have := kk.isLt; omega)

theorem fieldKK_of_toNat_eq {w : Word} {op : Nat} {x : VReg} {kk : Byte}
    (h : w.toNat = 4096 * op + 256 * x.val + kk.toNat) : fieldKK w = kk :=
  BitVec.eq_of_toNat_eq (by rw [fieldKK_toNat]; have := kk.isLt; omega)

theorem fieldABC_of_toNat_eq {w : Word} {op : Nat} {abc : Addr12} (h : w.toNat = 4096 * op + abc.toNat) :
    fieldABC w = abc :=
  BitVec.eq_of_toNat_eq (by rw [fieldABC_toNat]; have := abc.isLt; omega)

/-! ### LD (R81) -/

/-- A word numbered as LD's is LD of its register and its immediate. -/
theorem decode_of_toNat_eq_ld {w : Word} {x : VReg} {kk : Byte} (h : w.toNat = 0x6000 + 256 * x.val + kk.toNat) :
    decode w = .ok (.ld x kk) := by
  have hkk : kk.toNat < 256 := kk.isLt
  rw [decode_of_nibble_six (by omega), fieldX_of_toNat_eq (op := 6) h, fieldKK_of_toNat_eq (op := 6) h]

/-- Everything LD does: it completes, the register holds the immediate, and only that register and the reply are written. -/
theorem exec_ld_spec (x : VReg) (kk : Byte) (s : State) : ∃ t, exec (.ld x kk) s = .next t ∧ t.readV x = kk ∧
    (∀ r, r ≠ x → t.readV r = s.readV r) ∧ t = { s with v := t.v, reply := some (.ok none) } :=
  ⟨_, exec_ld x kk s, readV_writeV_same s x kk, fun _ h => readV_writeV_other s kk h, rfl⟩

/-- Settles O19: the number of LD's word is below 65536, so no field is cut off. -/
theorem ldLoadsTheImmediate : Obligations.LdLoadsTheImmediate := by
  refine ⟨fun x kk => decode_of_toNat_eq_ld ?_, exec_ld_spec⟩
  rw [BitVec.toNat_ofNat, Nat.mod_eq_of_lt (by have := kk.isLt; omega)]

/-! ### ADD (R82) -/

/-- A word numbered as ADD's is ADD of its register and its immediate. -/
theorem decode_of_toNat_eq_add {w : Word} {x : VReg} {kk : Byte} (h : w.toNat = 0x7000 + 256 * x.val + kk.toNat) :
    decode w = .ok (.add x kk) := by
  have hkk : kk.toNat < 256 := kk.isLt
  rw [decode_of_nibble_seven (by omega), fieldX_of_toNat_eq (op := 7) h, fieldKK_of_toNat_eq (op := 7) h]

/-- Everything ADD does: it completes, the register holds the wrapped sum, and only that register and the reply are written. -/
theorem exec_add_spec (x : VReg) (kk : Byte) (s : State) : ∃ t, exec (.add x kk) s = .next t ∧
    (t.readV x).toNat = ((s.readV x).toNat + kk.toNat) % 256 ∧
    (∀ r, r ≠ x → t.readV r = s.readV r) ∧ t = { s with v := t.v, reply := some (.ok none) } :=
  ⟨_, exec_add x kk s, by rw [readV_returnNone, readV_writeV_same, addWrap_toNat],
    fun _ h => readV_writeV_other s _ h, rfl⟩

/-- Settles O20: the number of ADD's word is below 65536, so no field is cut off. -/
theorem addWrapsAndSetsNoFlag : Obligations.AddWrapsAndSetsNoFlag := by
  refine ⟨fun x kk => decode_of_toNat_eq_add ?_, exec_add_spec⟩
  rw [BitVec.toNat_ofNat, Nat.mod_eq_of_lt (by have := kk.isLt; omega)]

/-! ### Memory in a run (R17, R117) -/

/-- No step writes memory, on a DecodeError either. -/
theorem stepUnder_keeps_mem {p : DecodeErrorPc} {keys : Keys} {s t : State} (h : stepUnder p keys s = .next t) :
    t.mem = s.mem := by
  obtain ⟨-, ⟨i, -, hexec⟩ | ⟨e, -, rfl⟩⟩ := stepUnder_cases h
  · obtain ⟨hmem, -⟩ := exec_keeps hexec
    rw [hmem, advancePc_mem]
  · rw [takeDecodeError_mem]

/-- All through a run memory is the image over zero fill, as the load left it, and the image is one that fits. -/
theorem Reachable.image_placed {p : Parameters} {image : List Byte} {s : State} (h : Reachable p image s) :
    image.length ≤ 3584 ∧ s.mem = Memory.ofImage 0x200 image := by
  induction h with
  | launch hboot =>
    obtain ⟨-, hlen, rfl⟩ := boot_cases hboot
    exact ⟨hlen, rfl⟩
  | step keys _ hstep ih => rwa [stepUnder_keeps_mem hstep]
  | tick _ ih => rwa [timerTick_mem]

/-- All through a run a byte of memory is the image's byte in its range and 0 outside it. -/
theorem Reachable.read_mem {p : Parameters} {image : List Byte} {s : State} (h : Reachable p image s) {a : Nat}
    (ha : a < 4096) :
    s.mem.read a = if 0x200 ≤ a ∧ a < 0x200 + image.length then image.getD (a - 0x200) 0#8 else 0#8 := by
  obtain ⟨hlen, hmem⟩ := h.image_placed
  rw [hmem, Memory.read_ofImage (by omega) ha]

/-! ### LDI (R83) -/

/-- A word numbered as LDI's is LDI of its low twelve bits. -/
theorem decode_of_toNat_eq_ldi {w : Word} {abc : Addr12} (h : w.toNat = 0xA000 + abc.toNat) :
    decode w = .ok (.ldi abc) := by
  have habc : abc.toNat < 4096 := abc.isLt
  rw [decode_of_nibble_ten (by omega), fieldABC_of_toNat_eq (op := 10) h]

/-- Everything LDI does: it completes, I is the address, and only I and the reply are written. -/
theorem exec_ldi_spec (abc : Addr12) (s : State) :
    ∃ t, exec (.ldi abc) s = .next t ∧ t.i.toNat = abc.toNat ∧ t = { s with i := t.i, reply := some (.ok none) } :=
  ⟨_, exec_ldi abc s, by rw [returnNone_i, setI_i, zextAddr_toNat], rfl⟩

/-- Settles O21: an image is placed from 0x200 on and nothing later writes memory, so the reserved range stays zero. -/
theorem ldiLoadsTheIndexRegister : Obligations.LdiLoadsTheIndexRegister := by
  refine ⟨fun abc => decode_of_toNat_eq_ldi ?_, exec_ldi_spec, fun p image s hs a ha => ?_⟩
  · rw [BitVec.toNat_ofNat, Nat.mod_eq_of_lt (by have := abc.isLt; omega)]
  · rw [hs.read_mem (by omega), if_neg (by omega)]

end Sys2Proof.Machine

namespace Sys2Proof.Machine

/-! ### What a draw does, by the set S of R90 -/

/-- A pixel of S is flipped (R89). -/
theorem drawn_pixel_of_inSprite {s : State} {x y : VReg} {n : Height} {r : Fin 32} {c : Fin 64}
    (h : InSprite s x y n r c) : (drawn s x y n).fb.pixel r c = !s.fb.pixel r c := by
  classical rw [drawn_pixel, decide_eq_true h, Bool.xor_true]

/-- A pixel outside S stays. -/
theorem drawn_pixel_of_not_inSprite {s : State} {x y : VReg} {n : Height} {r : Fin 32} {c : Fin 64}
    (h : ¬ InSprite s x y n r c) : (drawn s x y n).fb.pixel r c = s.fb.pixel r c := by
  classical rw [drawn_pixel, decide_eq_false h, Bool.xor_false]

/-- A draw completes, flips the pixels of S and leaves the others. -/
theorem exec_drw_pixels (x y : VReg) (n : Height) (s : State) : ∃ t, exec (.drw x y n) s = .next t ∧
    (∀ r c, InSprite s x y n r c → t.fb.pixel r c = !s.fb.pixel r c) ∧
    (∀ r c, ¬ InSprite s x y n r c → t.fb.pixel r c = s.fb.pixel r c) := by
  obtain ⟨t, ht, hfb, -⟩ := exec_drw_spec x y n s
  exact ⟨t, ht, fun r c h => hfb ▸ drawn_pixel_of_inSprite h, fun r c h => hfb ▸ drawn_pixel_of_not_inSprite h⟩

/-- S lies in the sprite's rectangle: nothing wraps to the opposite edge (R88). -/
theorem InSprite.in_rectangle {s : State} {x y : VReg} {n : Height} {r : Fin 32} {c : Fin 64}
    (h : InSprite s x y n r c) :
    (s.readV y).toNat % 32 ≤ r.val ∧ r.val < (s.readV y).toNat % 32 + n.val ∧
      (s.readV x).toNat % 64 ≤ c.val ∧ c.val < (s.readV x).toNat % 64 + 8 := by
  obtain ⟨i, j, hi, hj, hr, hc, -⟩ := h
  omega

/-- The start pixel is in S when the first sprite byte has bit 7 set (R86). -/
theorem inSprite_of_start {s : State} {x y : VReg} {n : Height} {r : Fin 32} {c : Fin 64}
    (hr : r.val = (s.readV y).toNat % 32) (hc : c.val = (s.readV x).toNat % 64) (hn : 0 < n.val)
    (hbit : (s.mem.read (s.i.toNat % 4096)).getLsbD 7 = true) : InSprite s x y n r c :=
  ⟨0, 0, hn, by omega, hr, hc, hbit⟩

/-! ### What a draw depends on -/

/-- The draw reads its two registers through the start position alone (R86, D4). -/
theorem exec_drw_congr_start {s : State} {x y x' y' : VReg} (n : Height) (hx : startColumn s x = startColumn s x')
    (hy : startRow s y = startRow s y') : exec (.drw x y n) s = exec (.drw x' y' n) s := by
  have hdrawn : drawn s x y n = drawn s x' y' n := by rw [drawn, drawn, hx, hy]
  rw [exec_drw, exec_drw, hdrawn]

/-- The display before and S determine the display and the collision a draw leaves. -/
theorem drawn_congr {s t : State} {x y : VReg} {n : Height} (hfb : t.fb = s.fb)
    (hS : ∀ r c, InSprite t x y n r c ↔ InSprite s x y n r c) : drawn t x y n = drawn s x y n := by
  classical
  have hpixels : (drawn t x y n).fb = (drawn s x y n).fb :=
    FrameBuffer.ext_pixel fun r c => by simp only [drawn_pixel, hfb, hS]
  have hhit : (drawn t x y n).hit = (drawn s x y n).hit := by
    rw [Bool.eq_iff_iff]
    simp only [drawn_hit, hfb, hS]
  exact (Canvas.mk.injEq ..).mpr ⟨hpixels, hhit⟩

/-- Draws from two states with the same display and the same S leave the same display and the same VF. -/
theorem exec_drw_congr_inSprite {s s' : State} {x y : VReg} {n : Height} (hfb : s'.fb = s.fb)
    (hS : ∀ r c, InSprite s' x y n r c ↔ InSprite s x y n r c) :
    ∃ t u, exec (.drw x y n) s = .next t ∧ exec (.drw x y n) s' = .next u ∧ u.fb = t.fb ∧
      u.readV 15 = t.readV 15 := by
  obtain ⟨t, ht, htfb, htflag, -⟩ := exec_drw_spec x y n s
  obtain ⟨u, hu, hufb, huflag, -⟩ := exec_drw_spec x y n s'
  have hdrawn : drawn s' x y n = drawn s x y n := drawn_congr hfb hS
  exact ⟨t, u, ht, hu, by rw [hufb, htfb, hdrawn], by rw [huflag, htflag, hdrawn]⟩

theorem readV_setMem (s : State) (m : Memory) (x : VReg) : State.readV { s with mem := m } x = s.readV x := rfl

/-- Only the sprite bits that fall on a row up to 31 and a column up to 63 decide S, since every pixel of S is on the display
(R88). -/
theorem inSprite_setMem_iff {s : State} {x y : VReg} {n : Height} {m : Memory}
    (h : ∀ r c : Nat, r < n.val → c < 8 → (s.readV y).toNat % 32 + r ≤ 31 → (s.readV x).toNat % 64 + c ≤ 63 →
      (m.read ((s.i.toNat + r) % 4096)).getLsbD (7 - c) = (s.mem.read ((s.i.toNat + r) % 4096)).getLsbD (7 - c))
    (row : Fin 32) (col : Fin 64) : InSprite { s with mem := m } x y n row col ↔ InSprite s x y n row col := by
  simp only [InSprite, readV_setMem]
  refine exists₂_congr fun r c => and_congr_right fun hr => and_congr_right fun hc => and_congr_right fun hrow =>
    and_congr_right fun hcol => ?_
  rw [h r c hr hc (by omega) (by omega)]

/-! ### The start position and the clip (R86, R88) -/

/-- Settles O26: with bit 7 set the start pixel is in S, a pixel above or to the left of it is outside S's rectangle, and the
registers enter the draw through the start position alone. -/
theorem drwStartsAtTheRegistersModuloTheDisplay : Obligations.DrwStartsAtTheRegistersModuloTheDisplay := by
  refine ⟨fun x y n s => ?_, fun x y x' y' n s hx hy => exec_drw_congr_start n hx hy⟩
  obtain ⟨t, ht, hflip, hkeep⟩ := exec_drw_pixels x y n s
  refine ⟨t, ht, fun r c hr hc hn hbit => hflip r c (inSprite_of_start hr hc hn hbit), fun r c hout => ?_⟩
  refine hkeep r c fun hin => ?_
  obtain ⟨hrow, -, hcol, -⟩ := hin.in_rectangle
  omega

/-- Settles O27: a changed pixel is in S, which lies in the rectangle and is made of visible bits alone. -/
theorem clippedBitsHaveNoEffect : Obligations.ClippedBitsHaveNoEffect := by
  refine ⟨fun x y n s => ?_, fun x y n s m h => exec_drw_congr_inSprite rfl (inSprite_setMem_iff h)⟩
  obtain ⟨t, ht, hflip, hkeep⟩ := exec_drw_pixels x y n s
  refine ⟨t, ht, fun r c hchanged => ?_, hflip⟩
  have hin : InSprite s x y n r c := not_imp_comm.mp (hkeep r c) hchanged
  exact hin.in_rectangle

/-! ### CLS (R84) and the draw of height 0 (R91) -/

/-- Everything CLS does: it completes, every pixel is off, and only the display and the reply are written. -/
theorem exec_cls_spec (s : State) : ∃ t, exec .cls s = .next t ∧ (∀ r c, t.fb.pixel r c = false) ∧
    t = { s with fb := t.fb, reply := some (.ok (some t.fb)) } :=
  ⟨_, exec_cls s, FrameBuffer.pixel_blank, rfl⟩

/-- Settles O23: 0x00E0 is the one word of CLS. -/
theorem clsClearsEveryPixel : Obligations.ClsClearsEveryPixel :=
  ⟨(decode_eq_cls_iff _).mpr rfl, exec_cls_spec⟩

/-- With no row to draw, the display stays and nothing collides. -/
theorem drawn_zero (s : State) (x y : VReg) : drawn s x y 0 = ⟨s.fb, false⟩ := rfl

/-- A draw of height 0 clears VF and returns the display, with no read of memory. -/
theorem exec_drw_zero (x y : VReg) (s : State) : exec (.drw x y 0) s = .next (returnDisplay (clearCollision s)) := by
  rw [exec_drw, drawn_zero]
  rfl

/-- Settles O28: what is left of the draw is `clearCollision`, the write of 0 to VF. -/
theorem drwOfHeightZeroOnlyClearsVf : Obligations.DrwOfHeightZeroOnlyClearsVf := fun x y s =>
  ⟨_, exec_drw_zero x y s, clearCollision_fb s, readV_writeV_same s flagReg 0#8,
    fun _ h => readV_writeV_other s 0#8 h, rfl, fun _ => ⟨_, exec_drw_zero x y _, rfl, rfl⟩⟩

end Sys2Proof.Machine

namespace Sys2Proof.Machine

/-! ### Construction (R104, R114) -/

/-- A positive frequency gives the state after reset (R114, D13). -/
theorem construct_of_positive {p : Parameters} (h : 0 < p.stepFrequencyHz) : construct p = .next State.reset :=
  if_pos h

@[simp] theorem reset_readV (x : VReg) : State.reset.readV x = 0#8 := Vector.getElem_replicate x.isLt

theorem reset_stack (k : Fin 16) : State.reset.stack[k] = 0#16 := Vector.getElem_replicate k.isLt

/-- Settles O40: construction answers `State.reset`, whose memory is empty, whose registers and stack are replicated zeros and
whose display is blank. -/
theorem constructionStartsZeroed : Obligations.ConstructionStartsZeroed := fun _ hfreq =>
  ⟨State.reset, construct_of_positive hfreq, Memory.read_empty, reset_readV, rfl, reset_stack, rfl, rfl, rfl,
    FrameBuffer.pixel_blank⟩

/-! ### An image that is too long (R97, R116) -/

/-- A longer image is a LoadError and writes nothing (R116, D12). -/
theorem loadPort_of_too_long {image : List Byte} (h : 3584 < image.length) (s : State) :
    loadPort image s = (.loadError, s) := by
  obtain ⟨hfits, -⟩ | ⟨-, hload⟩ := loadPort_cases image s
  · omega
  · exact hload

/-- The load port answers LoadError on the images longer than 3584 bytes alone (R97). -/
theorem loadPort_loadError_iff (image : List Byte) (s : State) :
    (loadPort image s).1 = .loadError ↔ 3584 < image.length := by
  obtain ⟨hfits, hload⟩ | ⟨hlong, hload⟩ := loadPort_cases image s
  · simp [hload, hfits]
  · simp [hload, hlong]

/-- A boot whose image is too long stops at its load (R113). -/
theorem boot_of_too_long {p : Parameters} {image : List Byte} (hlen : 3584 < image.length)
    (hfreq : 0 < p.stepFrequencyHz) : boot p image = .fault (.loadError image.length) := by
  simp only [boot, construct_of_positive hfreq, loadPort_of_too_long hlen]

/-- A core that has not been loaded refuses a step (R118, D11). -/
theorem stepUnder_of_constructed {p : DecodeErrorPc} {keys : Keys} {s : State} (h : s.phase = .constructed) :
    stepUnder p keys s = .refused .stepBeforeLoad := by
  rw [stepUnder, h]

/-- No step faults: it is refused before load, and a loaded core's step answers a next state. -/
theorem stepUnder_ne_fault (p : DecodeErrorPc) (keys : Keys) (s : State) (r : Fault) :
    stepUnder p keys s ≠ .fault r := by
  cases hphase : s.phase with
  | constructed =>
    rw [stepUnder_of_constructed hphase]
    nofun
  | loaded =>
    obtain ⟨t, ht, -⟩ := stepUnder_loaded_completes p keys hphase
    rw [ht]
    nofun

/-- Settles O43: the failed load leaves the state as construction made it, so the core still refuses a step. -/
theorem tooLongAnImageIsALoadError : Obligations.TooLongAnImageIsALoadError := by
  refine ⟨loadPort_loadError_iff, fun p image hlen hfreq => ⟨boot_of_too_long hlen hfreq, fun keys => ?_⟩,
    stepUnder_ne_fault⟩
  rw [loadPort_of_too_long hlen]
  exact stepUnder_of_constructed rfl

end Sys2Proof.Machine


namespace Sys2Proof.Machine

/-! ### An image that fits (R115) -/

/-- The image replaces all of memory, and only memory, `pc` and the model's `phase` are written (R115). -/
theorem loadPort_of_fits {image : List Byte} (h : image.length ≤ 3584) (s : State) :
    loadPort image s = (.ok, { s with mem := Memory.ofImage 0x200 image, pc := 0x200#16, phase := .loaded }) := by
  obtain ⟨-, hload⟩ | ⟨hlong, -⟩ := loadPort_cases image s
  · exact hload
  · omega

/-- Settles O42: the new memory is the image over zero fill, whose bytes `Memory.read_ofImage` gives as the image ends at or
before 0x1000. -/
theorem loadPlacesTheImageAndZeroFills : Obligations.LoadPlacesTheImageAndZeroFills := by
  intro image s hfits
  have hend : 0x200 + image.length ≤ 4096 := by omega
  exact ⟨_, loadPort_of_fits hfits s, fun _ ha => Memory.read_ofImage hend ha, rfl⟩

end Sys2Proof.Machine

namespace Sys2Proof

open Machine

/-! ### The word of an instruction as a number (R52) -/

theorem encode_jp_toNat (abc : Addr12) : (encode (.jp abc)).toNat = 0x1000 + abc.toNat := formatA_toNat 0x1#4 abc

theorem encode_ld_toNat (x : VReg) (kk : Byte) : (encode (.ld x kk)).toNat = 0x6000 + 256 * x.val + kk.toNat :=
  formatXK_toNat 0x6#4 x kk

theorem encode_add_toNat (x : VReg) (kk : Byte) : (encode (.add x kk)).toNat = 0x7000 + 256 * x.val + kk.toNat :=
  formatXK_toNat 0x7#4 x kk

theorem encode_ldi_toNat (abc : Addr12) : (encode (.ldi abc)).toNat = 0xA000 + abc.toNat := formatA_toNat 0xA#4 abc

theorem encode_drw_toNat (x y : VReg) (n : Height) :
    (encode (.drw x y n)).toNat = 0xD000 + 256 * x.val + 16 * y.val + n.val := formatXYN_toNat 0xD#4 x y n

/-- A word numbered as DRW's is DRW of its three operand nibbles. -/
theorem decode_of_toNat_eq_drw {w : Word} {x y : VReg} {n : Height}
    (h : w.toNat = 0xD000 + 256 * x.val + 16 * y.val + n.val) : decode w = .ok (.drw x y n) := by
  have hx : fieldX w = x := Fin.ext (by rw [fieldX_val]; omega)
  have hy : fieldY w = y := Fin.ext (by rw [fieldY_val]; omega)
  have hn : fieldN w = n := Fin.ext (by rw [fieldN_val]; omega)
  rw [decode_of_nibble_thirteen (by omega), hx, hy, hn]

/-- Settles O3: the number of each instruction's word, read back by the decoder's lemma for that number. -/
theorem decodeOfEncodeIsTheInstruction : Obligations.DecodeOfEncodeIsTheInstruction := by
  intro i
  cases i with
  | nop => exact (decode_eq_nop_iff _).mpr rfl
  | cls => exact (decode_eq_cls_iff _).mpr rfl
  | jp abc => exact decode_of_toNat_eq_jp (encode_jp_toNat abc)
  | ld x kk => exact decode_of_toNat_eq_ld (encode_ld_toNat x kk)
  | add x kk => exact decode_of_toNat_eq_add (encode_add_toNat x kk)
  | ldi abc => exact decode_of_toNat_eq_ldi (encode_ldi_toNat abc)
  | drw x y n => exact decode_of_toNat_eq_drw (encode_drw_toNat x y n)

/-! ### What a decoded word is (R58) -/

/-- Everything the decoder can answer: the seven patterns, each with its instruction. -/
theorem decode_ok_cases {w : Word} {i : Instr} (h : decode w = .ok i) :
    (w.toNat = 0x0000 ∧ i = .nop) ∨ (w.toNat = 0x00E0 ∧ i = .cls) ∨
    (w.toNat / 4096 = 0x1 ∧ i = .jp (fieldABC w)) ∨
    (w.toNat / 4096 = 0x6 ∧ i = .ld (fieldX w) (fieldKK w)) ∨
    (w.toNat / 4096 = 0x7 ∧ i = .add (fieldX w) (fieldKK w)) ∨
    (w.toNat / 4096 = 0xA ∧ i = .ldi (fieldABC w)) ∨
    (w.toNat / 4096 = 0xD ∧ i = .drw (fieldX w) (fieldY w) (fieldN w)) := by
  rw [decode_eq_ite_toNat] at h
  split_ifs at h <;> cases h <;> simp [*]

/-- Settles O4: in each case of the decoder the instruction's word has the number of the word decoded. -/
theorem encodeOfDecodeIsTheWord : Obligations.EncodeOfDecodeIsTheWord := by
  intro w i h
  apply BitVec.eq_of_toNat_eq
  obtain ⟨hw, rfl⟩ | ⟨hw, rfl⟩ | ⟨hw, rfl⟩ | ⟨hw, rfl⟩ | ⟨hw, rfl⟩ | ⟨hw, rfl⟩ | ⟨hw, rfl⟩ := decode_ok_cases h
  · exact hw.symm
  · exact hw.symm
  · rw [encode_jp_toNat, fieldABC_toNat]; omega
  · rw [encode_ld_toNat, fieldX_val, fieldKK_toNat]; omega
  · rw [encode_add_toNat, fieldX_val, fieldKK_toNat]; omega
  · rw [encode_ldi_toNat, fieldABC_toNat]; omega
  · rw [encode_drw_toNat, fieldX_val, fieldY_val, fieldN_val]; omega

/-! ### The words that do not decode (R62) -/

/-- A word is a decode error exactly where it meets none of the seven tests of R58. -/
theorem exists_decode_error_iff (w : Word) : (∃ e, decode w = .error e) ↔
    w.toNat ≠ 0x0000 ∧ w.toNat ≠ 0x00E0 ∧ w.toNat / 4096 ∉ [0x1, 0x6, 0x7, 0xA, 0xD] := by
  constructor
  · rintro ⟨e, he⟩
    rw [decode_eq_ite_toNat] at he
    split_ifs at he
    simp [*]
  · rintro ⟨hnop, hcls, h⟩
    exact ⟨_, decode_of_no_pattern hnop hcls h⟩

/-- The six ranges of R62's table. -/
theorem exists_decode_error_iff_ranges (w : Word) : (∃ e, decode w = .error e) ↔
    (0x0001 ≤ w.toNat ∧ w.toNat ≤ 0x00DF) ∨ (0x00E1 ≤ w.toNat ∧ w.toNat ≤ 0x0FFF) ∨
    (0x2000 ≤ w.toNat ∧ w.toNat ≤ 0x5FFF) ∨ (0x8000 ≤ w.toNat ∧ w.toNat ≤ 0x9FFF) ∨
    (0xB000 ≤ w.toNat ∧ w.toNat ≤ 0xCFFF) ∨ (0xE000 ≤ w.toNat ∧ w.toNat ≤ 0xFFFF) := by
  have hw : w.toNat < 65536 := w.isLt
  rw [exists_decode_error_iff]
  simp only [List.mem_cons, List.not_mem_nil, or_false, not_or]
  omega

theorem toBool_eq_false_iff (w : Word) : (decode w).toBool = false ↔ ∃ e, decode w = .error e := by
  cases decode w <;> simp [Except.toBool]

/-- The numbers of R62's table: its six ranges, in rising order. -/
def decodeErrorNumbers : Finset Nat :=
  Finset.Icc 0x0001 0x00DF ∪ Finset.Icc 0x00E1 0x0FFF ∪ Finset.Icc 0x2000 0x5FFF ∪ Finset.Icc 0x8000 0x9FFF ∪
    Finset.Icc 0xB000 0xCFFF ∪ Finset.Icc 0xE000 0xFFFF

/-- A range added above a set adds its length to the count. -/
theorem card_union_Icc {s : Finset Nat} {a b : Nat} (h : ∀ n ∈ s, n < a) :
    (s ∪ Finset.Icc a b).card = s.card + (b + 1 - a) := by
  rw [Finset.card_union_of_disjoint, Nat.card_Icc]
  rw [Finset.disjoint_left]
  intro n hn hab
  exact absurd (Finset.mem_Icc.mp hab).1 (Nat.not_le_of_lt (h n hn))

theorem decodeErrorNumbers_card : decodeErrorNumbers.card = 45054 := by
  unfold decodeErrorNumbers
  iterate 5 rw [card_union_Icc (by intro n hn; simp only [Finset.mem_union, Finset.mem_Icc] at hn; omega)]
  rw [Nat.card_Icc]

/-- The words that do not decode, as numbers, are those of the table. -/
theorem decodeError_words_map_val :
    (Finset.univ.filter fun w : Fin 65536 => (decode (BitVec.ofFin w)).toBool = false).map Fin.valEmbedding =
      decodeErrorNumbers := by
  ext n
  have hword (w : Fin 65536) : (BitVec.ofFin (w := 16) w).toNat = w.val := rfl
  simp only [Finset.mem_map, Finset.mem_filter, Finset.mem_univ, true_and, toBool_eq_false_iff,
    exists_decode_error_iff_ranges, hword, Fin.valEmbedding_apply, decodeErrorNumbers, Finset.mem_union, Finset.mem_Icc]
  constructor
  · rintro ⟨w, hw, rfl⟩
    omega
  · intro hn
    exact ⟨⟨n, by omega⟩, by dsimp only; omega, rfl⟩

/-- Settles O5: the tests of R58 leave six intervals, whose lengths add up to the count. -/
theorem decodeErrorWordsAreTheSixRanges : Obligations.DecodeErrorWordsAreTheSixRanges := by
  refine ⟨exists_decode_error_iff_ranges, ?_⟩
  rw [← Finset.card_map Fin.valEmbedding, decodeError_words_map_val, decodeErrorNumbers_card]

/-! ### The opcode table (R58, R59) -/

/-- The word of every instruction has the fixed bits of its own row, a row of the table. -/
theorem tableRow_statement (i : Instr) : Laws.TableRow.Statement i := by
  cases i with
  | nop => exact Laws.TableRow.nop
  | cls => exact Laws.TableRow.cls
  | jp abc => exact Laws.TableRow.jp abc
  | ld x kk => exact Laws.TableRow.ld x kk
  | add x kk => exact Laws.TableRow.add x kk
  | ldi abc => exact Laws.TableRow.ldi abc
  | drw x y n => exact Laws.TableRow.drw x y n

/-- A word that decodes is accepted by the row of its instruction. -/
theorem row_accepts_of_decode_ok {w : Word} {i : Instr} (h : decode w = .ok i) : i.row.accepts w = true := by
  obtain ⟨-, haccepts⟩ := tableRow_statement i
  rwa [encodeOfDecodeIsTheWord w i h] at haccepts

/-- A row of the full mask accepts its pattern alone. -/
theorem toNat_of_accepts_full {name : String} {w k : Word} (h : OpcodeRow.accepts ⟨name, 0xFFFF#16, k⟩ w = true) :
    w.toNat = k.toNat := by
  have hmask : w &&& 0xFFFF#16 = w := BitVec.and_allOnes
  rw [OpcodeRow.accepts, hmask, beq_iff_eq] at h
  rw [h]

/-- A row of the mask 0xF000 accepts words with the first nibble of its pattern. -/
theorem nibble_of_accepts {name : String} {w k : Word} (h : OpcodeRow.accepts ⟨name, 0xF000#16, k⟩ w = true) :
    w.toNat / 4096 = k.toNat / 4096 := by
  rw [OpcodeRow.accepts, Laws.TableRow.and_opcode_mask, beq_iff_eq] at h
  have hk : k.toNat = w.toNat / 4096 * 4096 := by
    rw [show k = nibble1 w ++ 0#12 from h.symm, append_toNat, nibble1_toNat]; simp
  omega

/-- A word that a row of the table accepts decodes to an instruction of that row. -/
theorem decode_of_accepts {r : OpcodeRow} (hr : r ∈ opcodeTable) {w : Word} (h : r.accepts w = true) :
    ∃ i, decode w = .ok i ∧ i.row = r := by
  simp only [opcodeTable, List.mem_cons, List.not_mem_nil, or_false] at hr
  obtain rfl | rfl | rfl | rfl | rfl | rfl | rfl := hr
  · exact ⟨_, (decode_eq_nop_iff w).mpr (toNat_of_accepts_full h), rfl⟩
  · exact ⟨_, (decode_eq_cls_iff w).mpr (toNat_of_accepts_full h), rfl⟩
  · exact ⟨_, decode_of_nibble_one (nibble_of_accepts h), rfl⟩
  · exact ⟨_, decode_of_nibble_six (nibble_of_accepts h), rfl⟩
  · exact ⟨_, decode_of_nibble_seven (nibble_of_accepts h), rfl⟩
  · exact ⟨_, decode_of_nibble_ten (nibble_of_accepts h), rfl⟩
  · exact ⟨_, decode_of_nibble_thirteen (nibble_of_accepts h), rfl⟩

/-- Settles O6: a row accepts the words that decode to one of its instructions, and a word decodes to one instruction. -/
theorem patternsArePairwiseDisjoint : Obligations.PatternsArePairwiseDisjoint := by
  refine ⟨fun r hr r' hr' w h h' => ?_, fun r hr w => ⟨decode_of_accepts hr, ?_⟩⟩
  · obtain ⟨i, hi, rfl⟩ := decode_of_accepts hr h
    obtain ⟨i', hi', rfl⟩ := decode_of_accepts hr' h'
    rw [Except.ok.inj (hi.symm.trans hi')]
  · rintro ⟨i, hi, rfl⟩
    exact row_accepts_of_decode_ok hi

/-! ### The assembler (R65, D10) -/

/-- The two bytes of a word decode as the word does. -/
theorem decodeBytes_highByte_lowByte (w : Word) : decodeBytes (highByte w) (lowByte w) = decode w := by
  rw [decodeBytes, wordOfBytes_highByte_lowByte]

/-- A line that stands for an instruction places its word, the most significant byte first. -/
theorem assemble_of_instr? {l : AsmLine} {i : Instr} (h : l.instr? = some i) :
    l.assemble = some [highByte (encode i), lowByte (encode i)] := by
  cases l with
  | bytes bs => simp [AsmLine.instr?] at h
  | nop | cls | jp | ld | add | ldi | drw => rw [AsmLine.assemble, h]; rfl

/-- A line places bytes exactly when it is well-formed. -/
theorem assemble_isSome (l : AsmLine) : l.assemble.isSome = l.wellFormed := by
  cases l with
  | bytes bs => rw [AsmLine.assemble]; cases AsmLine.wellFormed (.bytes bs) <;> rfl
  | nop | cls | jp | ld | add | ldi | drw =>
    rw [AsmLine.assemble, Option.isSome_map, AsmLine.instr?]; cases AsmLine.wellFormed _ <;> rfl

/-- A line that is not well-formed is refused. -/
theorem assemble_of_not_wellFormed {l : AsmLine} (h : l.wellFormed = false) : l.assemble = none := by
  rw [← Option.not_isSome_iff_eq_none, assemble_isSome, h]
  exact Bool.false_ne_true

/-- A jump's and an index load's address, in range, is its own number. -/
theorem toNat_ofNat_addr {addr : Nat} (h : addr ≤ 0xFFF) : (BitVec.ofNat 12 addr).toNat = addr := by
  rw [BitVec.toNat_ofNat]; omega

theorem toNat_ofNat_byte {kk : Nat} (h : kk ≤ 0xFF) : (BitVec.ofNat 8 kk).toNat = kk := by
  rw [BitVec.toNat_ofNat]; omega

theorem val_ofNat_nibble {x : Nat} (h : x ≤ 0xF) : (Fin.ofNat 16 x).val = x := by
  rw [Fin.val_ofNat]; omega

/-- An instruction line whose operands are in range exactly where `P` holds places the two bytes of its word there, and is
refused elsewhere. -/
theorem assemble_eq_ite {l : AsmLine} {i : Instr} {P : Prop} [Decidable P] {hi lo : Nat}
    (hinstr : l.instr? = if l.wellFormed then some i else none) (hwf : l.wellFormed = true ↔ P)
    (hword : P → (encode i).toNat / 256 = hi ∧ (encode i).toNat % 256 = lo) :
    l.assemble = if P then some [BitVec.ofNat 8 hi, BitVec.ofNat 8 lo] else none := by
  split
  · rename_i hP
    obtain ⟨rfl, rfl⟩ := hword hP
    rw [assemble_of_instr? (hinstr.trans (if_pos (hwf.mpr hP))), bytes_of_toNat _ rfl]
  · rename_i hP
    exact assemble_of_not_wellFormed (Bool.eq_false_iff.mpr (mt hwf.mp hP))

theorem assemble_jp (addr : Nat) : (AsmLine.jp addr).assemble = if addr ≤ 0xFFF then
    some [BitVec.ofNat 8 ((0x1000 + addr) / 256), BitVec.ofNat 8 ((0x1000 + addr) % 256)] else none :=
  assemble_eq_ite rfl decide_eq_true_iff fun h => by
    rw [encode_jp_toNat, toNat_ofNat_addr h]; exact ⟨rfl, rfl⟩

theorem assemble_ldi (addr : Nat) : (AsmLine.ldi addr).assemble = if addr ≤ 0xFFF then
    some [BitVec.ofNat 8 ((0xA000 + addr) / 256), BitVec.ofNat 8 ((0xA000 + addr) % 256)] else none :=
  assemble_eq_ite rfl decide_eq_true_iff fun h => by
    rw [encode_ldi_toNat, toNat_ofNat_addr h]; exact ⟨rfl, rfl⟩

theorem assemble_ld (x kk : Nat) : (AsmLine.ld x kk).assemble = if x ≤ 0xF ∧ kk ≤ 0xFF then
    some [BitVec.ofNat 8 (0x60 + x), BitVec.ofNat 8 kk] else none :=
  assemble_eq_ite rfl (by simp [AsmLine.wellFormed]) fun ⟨hx, hkk⟩ => by
    rw [encode_ld_toNat, val_ofNat_nibble hx, toNat_ofNat_byte hkk]; omega

theorem assemble_add (x kk : Nat) : (AsmLine.add x kk).assemble = if x ≤ 0xF ∧ kk ≤ 0xFF then
    some [BitVec.ofNat 8 (0x70 + x), BitVec.ofNat 8 kk] else none :=
  assemble_eq_ite rfl (by simp [AsmLine.wellFormed]) fun ⟨hx, hkk⟩ => by
    rw [encode_add_toNat, val_ofNat_nibble hx, toNat_ofNat_byte hkk]; omega

theorem assemble_drw (x y n : Nat) : (AsmLine.drw x y n).assemble = if x ≤ 0xF ∧ y ≤ 0xF ∧ n ≤ 15 then
    some [BitVec.ofNat 8 (0xD0 + x), BitVec.ofNat 8 (16 * y + n)] else none :=
  assemble_eq_ite rfl (by simp [AsmLine.wellFormed, and_assoc]) fun ⟨hx, hy, hn⟩ => by
    rw [encode_drw_toNat, val_ofNat_nibble hx, val_ofNat_nibble hy, val_ofNat_nibble hn]; omega

theorem assemble_bytes (bs : List Nat) : (AsmLine.bytes bs).assemble = if ∀ b ∈ bs, b ≤ 0xFF then
    some (bs.map (BitVec.ofNat 8)) else none := by
  simp only [AsmLine.assemble, AsmLine.wellFormed, List.all_eq_true, decide_eq_true_eq]

/-- Settles O7: the number of each instruction's word split into its two bytes, the operands in range by `wellFormed`. -/
theorem assemblerRefusesOutOfRangeOperands : Obligations.AssemblerRefusesOutOfRangeOperands :=
  ⟨assemble_of_instr? (i := .nop) rfl, assemble_of_instr? (i := .cls) rfl, assemble_jp, assemble_ld, assemble_add,
    assemble_ldi, assemble_drw, assemble_bytes, fun l => ⟨assemble_isSome l, fun i h =>
      ⟨_, _, assemble_of_instr? h, by rw [decodeBytes_highByte_lowByte, decodeOfEncodeIsTheInstruction i]⟩⟩⟩

/-- Settles O1: single words, each read by evaluating the decoder. -/
theorem tableWordsDecodeAsListed : Obligations.TableWordsDecodeAsListed := by
  unfold Obligations.TableWordsDecodeAsListed
  decide

end Sys2Proof

namespace Sys2Proof.Machine

/-! ### What a step leaves unchanged (R17, R95) -/

/-- No step writes the stack, its depth counter, the timers or the model's `phase`, on a DecodeError either. -/
theorem stepUnder_keeps {p : DecodeErrorPc} {keys : Keys} {s t : State} (h : stepUnder p keys s = .next t) :
    t.stack = s.stack ∧ t.sp = s.sp ∧ t.dt = s.dt ∧ t.st = s.st ∧ t.phase = s.phase := by
  obtain ⟨-, ⟨i, -, hexec⟩ | ⟨e, -, rfl⟩⟩ := stepUnder_cases h
  · obtain ⟨-, hstack, hsp, hdt, hst, hphase, -⟩ := exec_keeps hexec
    exact ⟨hstack, hsp, hdt, hst, hphase⟩
  · exact ⟨rfl, rfl, rfl, rfl, rfl⟩

/-- Settles O31: neither an instruction, nor a DecodeError, nor a tick writes memory, so no byte can read otherwise. -/
theorem noInstructionWritesMemory : Obligations.NoInstructionWritesMemory := by
  refine ⟨fun i s => ?_, fun p keys s t h a => by rw [stepUnder_keeps_mem h], fun s a => by rw [timerTick_mem]⟩
  obtain ⟨t, ht⟩ := exec_completes i s
  obtain ⟨hmem, -⟩ := exec_keeps ht
  exact ⟨t, ht, fun a => by rw [hmem]⟩

/-- Settles O32: `exec_keeps` gives the parts no instruction writes, and the equation of each instruction the rest of its row. -/
theorem registerAccessFollowsTheTable : Obligations.RegisterAccessFollowsTheTable := by
  intro i s
  obtain ⟨t, ht⟩ := exec_completes i s
  obtain ⟨hmem, hstack, hsp, hdt, hst, hphase, herrors⟩ := exec_keeps ht
  refine ⟨t, ht, hmem, hstack, hsp, hdt, hst, hphase, herrors, ?_⟩
  cases i with
  | nop => cases ht; exact ⟨rfl, rfl, rfl, rfl⟩
  | cls => cases ht; exact ⟨rfl, rfl, rfl⟩
  | jp abc => cases ht; exact ⟨rfl, rfl, rfl⟩
  | ld x kk => cases ht; exact ⟨fun _ h => readV_writeV_other s _ h, rfl, rfl, rfl⟩
  | add x kk => cases ht; exact ⟨fun _ h => readV_writeV_other s _ h, rfl, rfl, rfl⟩
  | ldi abc => cases ht; exact ⟨rfl, rfl, rfl⟩
  | drw x y n =>
    obtain ⟨u, hu, -, -, hother, hframe⟩ := exec_drw_spec x y n s
    obtain rfl : t = u := Host.Outcome.next.inj (ht.symm.trans hu)
    exact ⟨hother, by rw [hframe], by rw [hframe]⟩

/-! ### What a step does not read (R17, R23, R25) -/

/-- The state with other values in the stack, its depth counter and the timers. -/
def State.withStackAndTimers (s : State) (stack : Vector Word 16) (sp : Fin 17) (dt st : Byte) : State :=
  { s with stack := stack, sp := sp, dt := dt, st := st }

/-- No instruction reads the stack, its depth counter or the timers. -/
theorem exec_withStackAndTimers {i : Instr} {s t : State} (h : exec i s = .next t) (stack : Vector Word 16) (sp : Fin 17)
    (dt st : Byte) :
    exec i (s.withStackAndTimers stack sp dt st) = .next (t.withStackAndTimers stack sp dt st) := by
  cases i with
  | drw x y n =>
    rw [exec_drw] at h ⊢
    rw [show drawn (s.withStackAndTimers stack sp dt st) x y n = drawn s x y n from rfl]
    cases h
    cases (drawn s x y n).hit <;> rfl
  | nop | cls | jp | ld | add | ldi => cases h; rfl

/-- Settles O33: the word fetched is the same, so the same instruction executes or the same DecodeError is taken. -/
theorem stackAndTimersNeverInfluenceAStep : Obligations.StackAndTimersNeverInfluenceAStep := by
  intro p keys s t stack sp dt st h
  show stepUnder p keys (s.withStackAndTimers stack sp dt st) = .next (t.withStackAndTimers stack sp dt st)
  obtain ⟨hloaded, ⟨i, hdecode, hexec⟩ | ⟨e, hdecode, rfl⟩⟩ := stepUnder_cases h
  · rw [← exec_withStackAndTimers hexec]
    exact stepUnder_of_decode_ok hloaded hdecode
  · exact stepUnder_of_decode_error hloaded hdecode

/-! ### The ranges of `pc` and I (R18, R22) -/

/-- Execute writes `pc` with a zero-extended address or not at all. -/
theorem exec_pc_cases {i : Instr} {s t : State} (h : exec i s = .next t) :
    t.pc = s.pc ∨ ∃ abc, t.pc = zextAddr abc := by
  cases i with
  | jp abc => cases h; exact .inr ⟨abc, rfl⟩
  | drw x y n => cases h; exact .inl (noteCollision_pc _ _)
  | nop | cls | ld | add | ldi => cases h; exact .inl rfl

/-- Execute writes I with a zero-extended address or not at all. -/
theorem exec_i_cases {i : Instr} {s t : State} (h : exec i s = .next t) : t.i = s.i ∨ ∃ abc, t.i = zextAddr abc := by
  cases i with
  | ldi abc => cases h; exact .inr ⟨abc, rfl⟩
  | drw x y n => cases h; exact .inl (noteCollision_i _ _)
  | nop | cls | ld | add | jp => cases h; exact .inl rfl

theorem zextAddr_lt (abc : Addr12) : (zextAddr abc).toNat < 4096 := by
  rw [zextAddr_toNat]
  exact abc.isLt

theorem nextPc_lt (a : Word) : (nextPc a).toNat < 4096 := by
  rw [nextPc_toNat]
  exact Nat.mod_lt _ (by decide)

theorem pcAfterDecodeError_lt (p : DecodeErrorPc) {a : Word} (h : a.toNat < 4096) :
    (pcAfterDecodeError p a).toNat < 4096 := by
  cases p with
  | retain => exact h
  | advance => exact nextPc_lt a

theorem exec_keeps_inv {i : Instr} {s t : State} (hs : s.Inv) (h : exec i s = .next t) : t.Inv := by
  obtain ⟨hmem, -⟩ := exec_keeps h
  refine ⟨hmem ▸ hs.mem_wf, ?_, ?_⟩
  · obtain hpc | ⟨abc, hpc⟩ := exec_pc_cases h
    · exact hpc ▸ hs.pc_lt
    · exact hpc ▸ zextAddr_lt abc
  · obtain hi | ⟨abc, hi⟩ := exec_i_cases h
    · exact hi ▸ hs.i_lt
    · exact hi ▸ zextAddr_lt abc

theorem advancePc_inv {s : State} (hs : s.Inv) : (advancePc s).Inv := ⟨hs.mem_wf, nextPc_lt s.pc, hs.i_lt⟩

theorem takeDecodeError_inv {s : State} (hs : s.Inv) (p : DecodeErrorPc) (w : Word) : (takeDecodeError p w s).Inv :=
  ⟨hs.mem_wf, pcAfterDecodeError_lt p hs.pc_lt, hs.i_lt⟩

theorem stepUnder_keeps_inv {p : DecodeErrorPc} {keys : Keys} {s t : State} (hs : s.Inv)
    (h : stepUnder p keys s = .next t) : t.Inv := by
  obtain ⟨-, ⟨i, -, hexec⟩ | ⟨e, -, rfl⟩⟩ := stepUnder_cases h
  · exact exec_keeps_inv (advancePc_inv hs) hexec
  · exact takeDecodeError_inv hs p _

/-- Settles O34: only the fetch, JP and a DecodeError write `pc`, only LDI writes I, and nothing writes memory. -/
theorem everyStepKeepsTheInvariant : Obligations.EveryStepKeepsTheInvariant :=
  ⟨fun _ _ _ _ hs h => stepUnder_keeps_inv hs h, fun _ _ hs h => stepUnder_keeps_inv hs h⟩

theorem loadOffset_lt : (0x200#16 : Word).toNat < 4096 := by decide

theorem reset_inv : State.reset.Inv := ⟨reset_mem_wf, loadOffset_lt, by decide⟩

theorem reset_quiet : State.reset.Quiet := ⟨rfl, rfl, rfl, rfl⟩

/-- Settles O35: every clause is a field of `State.reset`. -/
theorem resetHoldsTheInvariant : Obligations.ResetHoldsTheInvariant := ⟨reset_inv, reset_quiet⟩

/-- Settles O36: a load places an image, which is canonical memory, or leaves the state. -/
theorem loadKeepsTheInvariant : Obligations.LoadKeepsTheInvariant := by
  intro image s hs
  obtain ⟨-, hload⟩ | ⟨-, hload⟩ := loadPort_cases image s
  · rw [hload]
    exact ⟨Memory.ofImage_wf 0x200 image, loadOffset_lt, hs.i_lt⟩
  · rwa [hload]

/-! ### The invariant of a run (R44, R115, R117) -/

theorem stepUnder_keeps_quiet {p : DecodeErrorPc} {keys : Keys} {s t : State} (hs : s.Quiet)
    (h : stepUnder p keys s = .next t) : t.Quiet := by
  obtain ⟨hstack, hsp, hdt, hst, -⟩ := stepUnder_keeps h
  exact ⟨hstack.trans hs.stack_zero, hsp.trans hs.sp_zero, hdt.trans hs.dt_zero, hst.trans hs.st_zero⟩

theorem stepUnder_keeps_runInv {image : List Byte} {p : DecodeErrorPc} {keys : Keys} {s t : State}
    (hs : s.RunInv image) (h : stepUnder p keys s = .next t) : t.RunInv image := by
  obtain ⟨-, -, -, -, hphase⟩ := stepUnder_keeps h
  exact ⟨stepUnder_keeps_inv hs.inv h, stepUnder_keeps_quiet hs.quiet h, hphase.trans hs.is_loaded,
    fun a ha => by rw [stepUnder_keeps_mem h, hs.mem_image a ha]⟩

/-- A timer at 0 stays at 0 (D8). -/
@[simp] theorem countDown_zero : countDown 0#8 = 0#8 := rfl

/-- A tick changes nothing where both timers are 0 (R108, D8). -/
theorem timerTick_of_quiet {s : State} (hs : s.Quiet) : timerTick s = s := by
  have hdt : countDown s.dt = s.dt := by rw [hs.dt_zero, countDown_zero]
  have hst : countDown s.st = s.st := by rw [hs.st_zero, countDown_zero]
  rw [timerTick, hdt, hst]

/-- Settles O49: a step keeps each part of the invariant, and a tick of timers at 0 changes nothing. -/
theorem stepsAndTicksKeepTheRunInvariant : Obligations.StepsAndTicksKeepTheRunInvariant :=
  ⟨fun _ _ _ _ _ hs h => stepUnder_keeps_runInv hs h, fun _ _ _ hs h => stepUnder_keeps_runInv hs h,
    fun _ _ hs => by rwa [timerTick_of_quiet hs.quiet]⟩

/-- The launch state has the invariant of a run. -/
theorem boot_runInv {p : Parameters} {image : List Byte} {s : State} (h : boot p image = .next s) : s.RunInv image := by
  obtain ⟨-, hfits, rfl⟩ := boot_cases h
  exact ⟨⟨Memory.ofImage_wf 0x200 image, loadOffset_lt, reset_inv.i_lt⟩, ⟨rfl, rfl, rfl, rfl⟩, rfl,
    fun a ha => Memory.read_ofImage (by omega) ha⟩

/-- Every state a run reaches has the invariant of the run. -/
theorem Reachable.runInv {p : Parameters} {image : List Byte} {s : State} (h : Reachable p image s) :
    s.RunInv image := by
  induction h with
  | launch hboot => exact boot_runInv hboot
  | step keys _ hstep ih => exact stepUnder_keeps_runInv ih hstep
  | tick _ ih => rwa [timerTick_of_quiet ih.quiet]

/-- Settles O37: the clauses are those of the invariant of a run. -/
theorem reachableStatesStayInRange : Obligations.ReachableStatesStayInRange := fun _ _ _ h =>
  ⟨h.runInv.inv, h.runInv.quiet, h.runInv.is_loaded, h.runInv.mem_image⟩

/-- Settles O39: both timers of a reachable state are 0. -/
theorem timerTicksAreNoOpsInARun : Obligations.TimerTicksAreNoOpsInARun := fun _ _ _ h =>
  timerTick_of_quiet h.runInv.quiet

/-! ### The record of DecodeErrors (R94, R113, D6, D17) -/

/-- A step adds to the record and removes nothing from it. -/
theorem stepUnder_decodeErrors {p : DecodeErrorPc} {keys : Keys} {s t : State} (h : stepUnder p keys s = .next t) :
    ∃ es, t.decodeErrors = s.decodeErrors ++ es := by
  obtain ⟨-, ⟨i, -, hexec⟩ | ⟨e, -, rfl⟩⟩ := stepUnder_cases h
  · obtain ⟨-, -, -, -, -, -, herrors⟩ := exec_keeps hexec
    exact ⟨[], by rw [herrors, advancePc_decodeErrors, List.append_nil]⟩
  · exact ⟨_, takeDecodeError_decodeErrors p _ s⟩

theorem faulted_iff (s : State) : s.faulted = true ↔ s.decodeErrors ≠ [] := by
  simp [State.faulted]

/-- Settles O16: a record that only grows stays nonempty. -/
theorem recordedErrorsAreNeverCleared : Obligations.RecordedErrorsAreNeverCleared := by
  refine ⟨fun p keys s t h => ?_, timerTick_decodeErrors⟩
  obtain ⟨es, hes⟩ := stepUnder_decodeErrors h
  refine ⟨⟨es, hes⟩, fun hs => ?_⟩
  rw [faulted_iff] at hs ⊢
  rw [hes]
  exact List.append_ne_nil_of_left_ne_nil hs es

/-- An error that names a word of `m` that does not decode, and its address (D6). -/
def DecodeError.NamesFailingWord (m : Memory) (e : DecodeError) : Prop :=
  (∃ r, decode e.word = .error r) ∧ e.addr.toNat < 4096 ∧
    e.word.toNat = 256 * (m.read e.addr.toNat).toNat + (m.read ((e.addr.toNat + 1) % 4096)).toNat

/-- The record of a run: a returned error is recorded, and a recorded one names a failing word. -/
structure State.RecordInv (s : State) : Prop where
  returned_recorded : ∀ e, s.reply = some (.err e) → e ∈ s.decodeErrors
  recorded_fails : ∀ e ∈ s.decodeErrors, e.NamesFailingWord s.mem

/-- An instruction returns no error (R96). -/
theorem exec_reply_ok {i : Instr} {s t : State} (h : exec i s = .next t) : ∃ d, t.reply = some (.ok d) := by
  cases i <;> (cases h; exact ⟨_, rfl⟩)

theorem exec_keeps_recordInv {i : Instr} {s t : State} (hs : ∀ e ∈ s.decodeErrors, e.NamesFailingWord s.mem)
    (h : exec i s = .next t) : t.RecordInv := by
  obtain ⟨hmem, -, -, -, -, -, herrors⟩ := exec_keeps h
  obtain ⟨d, hd⟩ := exec_reply_ok h
  refine ⟨fun e he => ?_, by rwa [hmem, herrors]⟩
  rw [hd] at he
  cases he

/-- The error of a step names the fetched word and the fetch address (R94, D6). -/
theorem takeDecodeError_recordInv {s : State} {r : DecodeReject} (p : DecodeErrorPc) (hs : s.RecordInv)
    (hpc : s.pc.toNat < 4096) (hd : decode (fetchWord s) = .error r) :
    (takeDecodeError p (fetchWord s) s).RecordInv := by
  refine ⟨fun e he => ?_, fun e he => ?_⟩
  · rw [takeDecodeError_reply] at he
    cases he
    simp
  · rw [takeDecodeError_decodeErrors, List.mem_append, List.mem_singleton] at he
    obtain he | rfl := he
    · exact hs.recorded_fails e he
    · exact ⟨⟨r, hd⟩, hpc, fetchWord_toNat s⟩

theorem stepUnder_keeps_recordInv {p : DecodeErrorPc} {keys : Keys} {s t : State} (hs : s.RecordInv)
    (hpc : s.pc.toNat < 4096) (h : stepUnder p keys s = .next t) : t.RecordInv := by
  obtain ⟨-, ⟨i, -, hexec⟩ | ⟨e, hd, rfl⟩⟩ := stepUnder_cases h
  · exact exec_keeps_recordInv (s := advancePc s) hs.recorded_fails hexec
  · exact takeDecodeError_recordInv p hs hpc hd

theorem Reachable.recordInv {p : Parameters} {image : List Byte} {s : State} (h : Reachable p image s) :
    s.RecordInv := by
  induction h with
  | launch hboot =>
    obtain ⟨-, -, rfl⟩ := boot_cases hboot
    exact ⟨nofun, nofun⟩
  | step keys hs hstep ih => exact stepUnder_keeps_recordInv ih hs.runInv.inv.pc_lt hstep
  | tick _ ih => exact ⟨ih.returned_recorded, ih.recorded_fails⟩

/-- Settles O38: where nothing is recorded, nothing returned can be an error. -/
theorem recordedErrorsNameTheFailingWord : Obligations.RecordedErrorsNameTheFailingWord := by
  intro p image s h
  obtain ⟨hreturned, hrecorded⟩ := h.recordInv
  refine ⟨hreturned, fun hsafe e he => ?_, hrecorded⟩
  obtain ⟨-, hfaulted⟩ := hsafe
  have hnonempty : s.decodeErrors ≠ [] := List.ne_nil_of_mem (hreturned e he)
  rw [← faulted_iff, hfaulted] at hnonempty
  exact Bool.false_ne_true hnonempty

/-! ### Steps on and after a DecodeError (R71, R95, R101, D5) -/

/-- Settles O8: the number of the fetched word, as it stands. -/
theorem fetchIsBigEndianAndWraps : Obligations.FetchIsBigEndianAndWraps := fetchWord_toNat

/-- Settles O14: the step is `takeDecodeError`, whose writes are `pc`, the reply and the record. -/
theorem decodeErrorIsPrecise : Obligations.DecodeErrorIsPrecise := fun keys s _ hloaded hd =>
  ⟨stepUnder_of_decode_error hloaded hd, stepUnder_of_decode_error hloaded hd,
    keysNeverMatter _ Keys.noneHeld keys s⟩

/-- Settles O15: under Retain neither memory nor `pc` changes, so the next fetch finds the same word; under Advance the next
fetch is at the advanced `pc`. -/
theorem stepAfterDecodeErrorGoesOn : Obligations.StepAfterDecodeErrorGoesOn := by
  intro keys s e hloaded hd
  refine ⟨⟨_, _, stepUnder_of_decode_error hloaded hd, stepUnder_of_decode_error hloaded hd, rfl, rfl, rfl⟩, ?_⟩
  obtain ⟨u, hu, -⟩ := stepUnder_loaded_completes .advance keys
    (s := takeDecodeError .advance (fetchWord s) s) hloaded
  refine ⟨_, u, stepUnder_of_decode_error hloaded hd, hu, ?_⟩
  rw [fetchWord_toNat, takeDecodeError_mem, takeDecodeError_pc, pcAfterDecodeError, nextPc_toNat, Nat.mod_add_mod]

/-! ### A run over zero memory (R79) -/

/-- Settles O13: by induction on the number of steps, each a NOP that keeps memory zero. -/
theorem zeroMemoryRunsNopsAndWraps : Obligations.ZeroMemoryRunsNopsAndWraps := by
  intro k
  induction k with
  | zero => exact fun s _ hpc _ => ⟨s, run_zero s, (Nat.mod_eq_of_lt hpc).symm, rfl⟩
  | succ k ih =>
    intro s hloaded hpc hmem
    have hstep : step s = .next (returnNone (advancePc s)) := stepUnder_of_zero_bytes _ _ hloaded (hmem _) (hmem _)
    obtain ⟨t, hrun, htpc, hframe⟩ := ih (returnNone (advancePc s)) hloaded (nextPc_lt s.pc) hmem
    refine ⟨t, (run_succ_of_step k hstep).trans hrun, ?_, hframe⟩
    rw [htpc, returnNone_pc, advancePc_pc, nextPc_toNat]
    omega

/-! ### LD, then ADD (R120) -/

/-- Settles O22: ADD reads what LD wrote, and each leaves the other registers. -/
theorem ldThenAddSeesTheNewValue : Obligations.LdThenAddSeesTheNewValue := by
  intro x a b s
  obtain ⟨t, ht, htx, htother, -⟩ := exec_ld_spec x a s
  obtain ⟨u, hu, hux, huother, -⟩ := exec_add_spec x b t
  exact ⟨t, u, ht, hu, by rw [hux, htx], fun r hr => by rw [huother r hr, htother r hr]⟩

end Sys2Proof.Machine

namespace Sys2Proof.Machine

/-! ### The draw by the set S of R90 -/

/-- S depends on the two registers, I and memory alone. -/
theorem inSprite_congr {s t : State} {x y : VReg} (n : Height) (hx : t.readV x = s.readV x) (hy : t.readV y = s.readV y)
    (hi : t.i = s.i) (hmem : t.mem = s.mem) (r : Fin 32) (c : Fin 64) :
    InSprite t x y n r c ↔ InSprite s x y n r c := by
  simp only [InSprite, hx, hy, hi, hmem]

/-- Settles O24: the laws of the drawn canvas, read off the state that `exec_drw_spec` gives. -/
theorem drwFlipsExactlyTheVisibleSprite : Obligations.DrwFlipsExactlyTheVisibleSprite := by
  intro x y n s
  obtain ⟨t, ht, hfb, hflag, -⟩ := exec_drw_spec x y n s
  refine ⟨t, ht, fun r c => ⟨fun h => hfb ▸ drawn_pixel_of_inSprite h, fun h => hfb ▸ drawn_pixel_of_not_inSprite h⟩,
    fun hon => ?_, fun hoff => ?_⟩
  · rw [hflag, if_pos ((drawn_hit s x y n).mpr hon)]
  · have hhit : ¬ (drawn s x y n).hit = true := by
      rw [drawn_hit]
      rintro ⟨r, c, hin, hon⟩
      exact Bool.false_ne_true ((hoff r c hin).symm.trans hon)
    rw [hflag, if_neg hhit]

/-- Settles O25: the number of DRW's word is below 65536, and `exec_drw_spec` is the frame. -/
theorem drwWritesOnlyVfAndTheDisplay : Obligations.DrwWritesOnlyVfAndTheDisplay := by
  refine ⟨fun x y n => decode_of_toNat_eq_drw ?_, fun x y n s => ?_⟩
  · rw [BitVec.toNat_ofNat, Nat.mod_eq_of_lt (by omega)]
  · obtain ⟨t, ht, -, hflag, hother, hframe⟩ := exec_drw_spec x y n s
    refine ⟨t, ht, hother, ?_, fun a => by rw [hframe], hframe⟩
    rw [hflag]
    cases (drawn s x y n).hit with
    | false => exact .inl rfl
    | true => exact .inr rfl

/-- Another memory that gives the same drawn canvas gives the same draw, memory aside. -/
theorem exec_drw_setMem {s t : State} {x y : VReg} {n : Height} {m : Memory}
    (hdrawn : drawn { s with mem := m } x y n = drawn s x y n) (h : exec (.drw x y n) s = .next t) :
    exec (.drw x y n) { s with mem := m } = .next { t with mem := m } := by
  rw [exec_drw] at h ⊢
  rw [hdrawn]
  cases h
  cases (drawn s x y n).hit <;> rfl

/-- Settles O29: S takes its bits from the source bytes alone, so another memory with the same source bytes has the same S. -/
theorem drwReadsOnlyItsSourceBytes : Obligations.DrwReadsOnlyItsSourceBytes := by
  intro x y n s m hsource
  have hS (r : Fin 32) (c : Fin 64) : InSprite { s with mem := m } x y n r c ↔ InSprite s x y n r c :=
    inSprite_setMem_iff (fun r c hr _ _ _ => by rw [hsource r hr]) r c
  obtain ⟨t, ht, -, -, -, hframe⟩ := exec_drw_spec x y n s
  exact ⟨t, _, ht, exec_drw_setMem (drawn_congr rfl hS) ht, rfl, by rw [hframe]⟩

/-- After a draw whose start position is not in VF, S is what it was before. -/
theorem inSprite_after_drw {x y : VReg} {n : Height} {s t : State} (h : exec (.drw x y n) s = .next t) (hx : x ≠ 15)
    (hy : y ≠ 15) (r : Fin 32) (c : Fin 64) : InSprite t x y n r c ↔ InSprite s x y n r c := by
  obtain ⟨u, hu, -, -, hother, hframe⟩ := exec_drw_spec x y n s
  obtain rfl : t = u := Host.Outcome.next.inj (h.symm.trans hu)
  exact inSprite_congr n (hother x hx) (hother y hy) (by rw [hframe]) (by rw [hframe]) r c

/-- Settles O30: S is the same for both draws, so each of its pixels is flipped twice, and the second draw finds it on exactly
where the first found it off. -/
theorem doubleDrawRestoresTheDisplay : Obligations.DoubleDrawRestoresTheDisplay := by
  intro x y n s hx hy
  obtain ⟨t, ht, htfb, -⟩ := exec_drw_spec x y n s
  obtain ⟨u, hu, hufb, huflag, -⟩ := exec_drw_spec x y n t
  have hS (r : Fin 32) (c : Fin 64) : InSprite t x y n r c ↔ InSprite s x y n r c := inSprite_after_drw ht hx hy r c
  refine ⟨t, u, ht, hu, FrameBuffer.ext_pixel fun r c => ?_, ?_⟩
  · rw [hufb]
    by_cases hin : InSprite s x y n r c
    · rw [drawn_pixel_of_inSprite ((hS r c).mpr hin), htfb, drawn_pixel_of_inSprite hin, Bool.not_not]
    · rw [drawn_pixel_of_not_inSprite (mt (hS r c).mp hin), htfb, drawn_pixel_of_not_inSprite hin]
  · have hflag : u.readV 15 = 1#8 ↔ (drawn t x y n).hit = true := by
      rw [huflag]
      cases (drawn t x y n).hit <;> decide
    rw [hflag, drawn_hit]
    refine exists₂_congr fun r c => ?_
    rw [hS, and_congr_right_iff]
    intro hin
    rw [htfb, drawn_pixel_of_inSprite hin, Bool.not_eq_true']

/-! ### Construction and boot (R114 to R118) -/

/-- Settles O41: construction is decided by its frequency alone. -/
theorem constructionSetsPcAndRefusesBadFrequency : Obligations.ConstructionSetsPcAndRefusesBadFrequency :=
  ⟨rfl, fun _ hfreq => construct_of_positive hfreq, fun _ hfreq => if_neg hfreq⟩

/-- A boot with a positive frequency and an image that fits answers a launch state, whose `pc` is 0x200 (R117). -/
theorem boot_of_fits {p : Parameters} {image : List Byte} (hfreq : 0 < p.stepFrequencyHz)
    (hfits : image.length ≤ 3584) : ∃ s, boot p image = .next s ∧ s.pc = 0x200#16 :=
  ⟨(loadPort image State.reset).2, by simp only [boot, construct_of_positive hfreq, loadPort_of_fits hfits],
    by rw [loadPort_of_fits hfits]⟩

/-- Settles O44: the load port of a core that may be loaded answers its LoadError with the state as it was. -/
theorem failedLoadWritesNothing : Obligations.FailedLoadWritesNothing := by
  intro p image s hlen
  refine ⟨by rw [loadPort_of_too_long hlen], fun hphase => ?_⟩
  simp only [transact, hphase, loadPort_of_too_long hlen]

/-- A loaded core refuses a load (R118, D11). -/
theorem transact_load_of_loaded (p : Parameters) (image : List Byte) {s : State} (h : s.phase = .loaded) :
    transact p (.load image) s = .refused .secondLoad := by
  simp only [transact, h]

/-- Settles O45: a core is loaded all through a run. -/
theorem stepBeforeLoadAndSecondLoadAreRefused : Obligations.StepBeforeLoadAndSecondLoadAreRefused :=
  ⟨fun _ _ _ h => ⟨stepUnder_of_constructed h, stepUnder_of_constructed h⟩,
    fun p _ image' _ h => transact_load_of_loaded p image' h.runInv.is_loaded⟩

/-- All through a run the bytes at 0x200 and 0x201 are the first two of the image. -/
theorem State.RunInv.first_bytes {hi lo : Byte} {rest : List Byte} {s : State} (h : s.RunInv (hi :: lo :: rest)) :
    s.mem.read 0x200 = hi ∧ s.mem.read 0x201 = lo := by
  rw [h.mem_image 0x200 (by decide), h.mem_image 0x201 (by decide), List.length_cons, List.length_cons,
    if_pos (by omega), if_pos (by omega)]
  exact ⟨rfl, rfl⟩

/-- Settles O46: the two bytes at 0x200 of the launch state are the first two of the image. -/
theorem firstStepRunsTheImage : Obligations.FirstStepRunsTheImage := by
  intro p hi lo rest i keys hfreq hrest hd
  obtain ⟨s, hboot, hpc⟩ := boot_of_fits (image := hi :: lo :: rest) hfreq (by simp only [List.length_cons]; omega)
  have hrun : s.RunInv (hi :: lo :: rest) := boot_runInv hboot
  obtain ⟨hhi, hlo⟩ := hrun.first_bytes
  have hadvance : advancePc s = { s with pc := 0x202#16 } := by rw [advancePc, hpc]; rfl
  refine ⟨s, hboot, ?_⟩
  rw [← hadvance]
  exact stepUnder_of_decodeBytes_ok _ keys hrun.is_loaded (by rw [hpc]; exact hhi) (by rw [hpc]; exact hlo) hd

/-! ### Timer ticks and queries (R107, R108, R31, R32) -/

/-- A nonzero timer goes down by 1. -/
theorem countDown_toNat_of_pos {t : Byte} (h : 0 < t.toNat) : (countDown t).toNat = t.toNat - 1 := by
  have hne : t ≠ 0#8 := by rintro rfl; exact Nat.lt_irrefl 0 h
  rw [countDown, if_neg hne]
  bv_omega

/-- Settles O47: a tick counts each timer down and writes nothing else. -/
theorem timerTickCountsDown : Obligations.TimerTickCountsDown := fun s =>
  ⟨countDown_toNat_of_pos, fun h => by rw [timerTick_dt, h, countDown_zero], countDown_toNat_of_pos,
    fun h => by rw [timerTick_st, h, countDown_zero], rfl⟩

/-- Settles O48: a positive frequency is not 0, so its reciprocal times it is 1. -/
theorem queriesReportConstants : Obligations.QueriesReportConstants := fun _ _ hfreq =>
  ⟨rfl, _, rfl, one_div_mul_cancel hfreq.ne'⟩

end Sys2Proof.Machine
